-- ==== Sys2Proof/Word.lean ====
section
/-! DEFINITION. The word types of the LS-8 core: its byte and its program counter. -/

namespace Sys2Proof

/-- A general register, a memory cell, an operand byte: 8 bits, unsigned (00_scope.md R4 `XLEN`; 10_state.md R10, R20). -/
abbrev Byte := BitVec 8

/-- The program counter: 9 bits, so that 256 is a value of it and no increment wraps (10_state.md R14, D5; entry 7). -/
abbrev Pc := BitVec 9

end Sys2Proof
end

