-- ==== Sys2Proof/Syntax.lean ====
section
/-! DEFINITION. The instructions as syntax: one constructor of `Instr` per row of spec/opcode_table.json, in the table's
order, and the causes for which a step can be refused by the hardware itself. -/

namespace Sys2Proof

/-- A register index 0..7 after the range check of 30_encoding.md R49. Index 7 is the stack pointer (10_state.md R11). -/
abbrev Reg := Fin 8

/-- The rows of spec/opcode_table.json by name (30_encoding.md R51). -/
inductive Mnemonic where
  | hlt | ret | push | pop | prn | call | jmp | jeq | jne | not | ldi
  | add | sub | mul | div | mod | cmp | and | or | xor | shl | shr
deriving DecidableEq, Repr

/-- The four formats of 30_encoding.md R48. -/
inductive Format where
  /-- opcode alone -/
  | z
  /-- opcode, register a -/
  | r
  /-- opcode, register a, register b -/
  | rr
  /-- opcode, register a, literal byte -/
  | ri
deriving DecidableEq, Repr

/-- An instruction with its operands extracted (00_scope.md R6: `a`, `b` register indices after the range check, `imm` the
literal byte). -/
inductive Instr where
  | hlt
  | ret
  | push (a : Reg)
  | pop (a : Reg)
  | prn (a : Reg)
  | call (a : Reg)
  | jmp (a : Reg)
  | jeq (a : Reg)
  | jne (a : Reg)
  | not (a : Reg)
  | ldi (a : Reg) (imm : Byte)
  | add (a b : Reg)
  | sub (a b : Reg)
  | mul (a b : Reg)
  | div (a b : Reg)
  | mod (a b : Reg)
  | cmp (a b : Reg)
  | and (a b : Reg)
  | or (a b : Reg)
  | xor (a b : Reg)
  | shl (a b : Reg)
  | shr (a b : Reg)
deriving DecidableEq, Repr

/-- The row an instruction belongs to. -/
def Instr.mnemonic : Instr → Mnemonic
  | .hlt => .hlt
  | .ret => .ret
  | .push _ => .push
  | .pop _ => .pop
  | .prn _ => .prn
  | .call _ => .call
  | .jmp _ => .jmp
  | .jeq _ => .jeq
  | .jne _ => .jne
  | .not _ => .not
  | .ldi _ _ => .ldi
  | .add _ _ => .add
  | .sub _ _ => .sub
  | .mul _ _ => .mul
  | .div _ _ => .div
  | .mod _ _ => .mod
  | .cmp _ _ => .cmp
  | .and _ _ => .and
  | .or _ _ => .or
  | .xor _ _ => .xor
  | .shl _ _ => .shl
  | .shr _ _ => .shr

/-- The faults of the hardware, with the info column of 60_exceptions.md R120. A `Cause` never ends a run of the model as an
error: raising one is a next state (`Machine.raise`, R126). -/
inductive Cause where
  /-- Code 1: MOD or DIV with a zero divisor; carries the pc (R124). -/
  | divideByZero (pc : Pc)
  /-- Code 2: the opcode byte is no row of the map; carries the byte (R122). -/
  | illegalOpcode (ir : Byte)
  /-- Code 3: a register operand byte above 7; carries the byte (R123). -/
  | registerIndexOutOfRange (operand : Byte)
  /-- Code 4: an address above 255; carries the address. The fetch check carries the pc (R121). -/
  | addressOutOfRange (addr : Nat)
deriving DecidableEq, Repr

end Sys2Proof
end

