-- ==== Sys2Proof/Config.lean ====
section
/-! DEFINITION. What an implementation fixes: the parameters of 00_scope.md R4. No free value: the spec leaves no result
of an instruction open (93_implementation_defined.md; NOTES.md). -/

namespace Sys2Proof

/-- `OPCODE_MAP` (00_scope.md R4, D1): the opcode byte of each mnemonic, one field a row. PRESUMED as to the values, which
stand in `OpcodeMap.standard`; entry 1. -/
structure OpcodeMap where
  hlt : Byte
  ret : Byte
  push : Byte
  pop : Byte
  prn : Byte
  call : Byte
  jmp : Byte
  jeq : Byte
  jne : Byte
  not : Byte
  ldi : Byte
  add : Byte
  sub : Byte
  mul : Byte
  div : Byte
  mod : Byte
  cmp : Byte
  and : Byte
  or : Byte
  xor : Byte
  shl : Byte
  shr : Byte
deriving DecidableEq, Repr

/-- The parameters the model takes (92_eei_decisions.md, "Points left OPEN as parameters"): `HAS_DIV` and `OPCODE_MAP`.
`IMAGE` is the argument of `Machine.launch`. DESIGN CHOICE as to where they are held (State.params); entry 2. -/
structure Params where
  hasDiv : Bool
  opcodes : OpcodeMap
deriving DecidableEq, Repr

/-- `SP_INDEX` (00_scope.md R4). -/
def Config.spIndex : Reg := 7

/-- `MEM_SIZE` (00_scope.md R4). -/
def Config.memSize : Nat := 256

/-- `SP_RESET` (00_scope.md R4; 10_state.md R24). -/
def Config.spReset : Byte := 0xF4

/-- `PC_RESET` (00_scope.md R4; 10_state.md R24). -/
def Config.pcReset : Pc := 0

/-- `GPR_RESET` (00_scope.md R4, D6; entry 5). -/
def Config.gprReset : Byte := 0x00

/-- `FL_RESET` (00_scope.md R4, D7; entry 5). -/
def Config.flReset : BitVec 3 := 0b000

/-- What a memory cell that nothing has listed reads as. DESIGN CHOICE: 0x00, the loader's zero fill of 70_reset_and_hazards.md
R141 (D8); unsafe, entry 4. `Machine.launch` takes the whole `IMAGE` instead. -/
def Config.fillByte : Byte := 0x00

end Sys2Proof
end

