-- ==== Sys2Proof/WellFormed.lean ====
section
/-! DEFINITION. When an instruction exists on a machine with given parameters. The types of `Instr` carry the range checks of
the operands; the one check left is the optional instruction DIV. -/

namespace Sys2Proof

/-- The rows that count on a machine with these parameters: all, but DIV only if `HAS_DIV` (30_encoding.md R51; D3). -/
def Mnemonic.present (p : Params) : Mnemonic → Bool
  | .div => p.hasDiv
  | .hlt | .ret | .push | .pop | .prn | .call | .jmp | .jeq | .jne | .not | .ldi => true
  | .add | .sub | .mul | .mod | .cmp | .and | .or | .xor | .shl | .shr => true

/-- An instruction is well formed on a machine with parameters `p` when its row counts there. -/
def Instr.wellFormed (p : Params) (i : Instr) : Bool :=
  i.mnemonic.present p

end Sys2Proof
end

