-- ==== Sys2Proof/Decode.lean ====
section
/-! DEFINITION. The opcode map, the decoder (total, rejecting by `Cause`), the encoder, the word forms the host asks for, and
the assembly notation (30_encoding.md). -/

namespace Sys2Proof

/-! The opcode map -/

/-- The table of 30_encoding.md R51. PRESUMED by the spec itself (D1, G1, G4: general knowledge of LS-8); unsafe, entry 1. -/
def OpcodeMap.standard : OpcodeMap where
  hlt := 0x01
  ret := 0x11
  push := 0x45
  pop := 0x46
  prn := 0x47
  call := 0x50
  jmp := 0x54
  jeq := 0x55
  jne := 0x56
  not := 0x69
  ldi := 0x82
  add := 0xA0
  sub := 0xA1
  mul := 0xA2
  div := 0xA3
  mod := 0xA4
  cmp := 0xA7
  and := 0xA8
  or := 0xAA
  xor := 0xAB
  shl := 0xAC
  shr := 0xAD

/-- The defaults of 00_scope.md R4: `HAS_DIV` false (D3), `OPCODE_MAP` the table of R51 (D1). -/
def Params.standard : Params := ⟨false, OpcodeMap.standard⟩

/-- The same with `HAS_DIV` true: all 22 rows of spec/opcode_table.json count. -/
def Params.table : Params := { Params.standard with hasDiv := true }

/-- The rows in the order of spec/opcode_table.json. -/
def Mnemonic.all : List Mnemonic :=
  [.hlt, .ret, .push, .pop, .prn, .call, .jmp, .jeq, .jne, .not, .ldi] ++
  [.add, .sub, .mul, .div, .mod, .cmp, .and, .or, .xor, .shl, .shr]

/-- The opcode byte a map gives a row. -/
def OpcodeMap.byte (o : OpcodeMap) : Mnemonic → Byte
  | .hlt => o.hlt
  | .ret => o.ret
  | .push => o.push
  | .pop => o.pop
  | .prn => o.prn
  | .call => o.call
  | .jmp => o.jmp
  | .jeq => o.jeq
  | .jne => o.jne
  | .not => o.not
  | .ldi => o.ldi
  | .add => o.add
  | .sub => o.sub
  | .mul => o.mul
  | .div => o.div
  | .mod => o.mod
  | .cmp => o.cmp
  | .and => o.and
  | .or => o.or
  | .xor => o.xor
  | .shl => o.shl
  | .shr => o.shr

/-- The format column of 30_encoding.md R51. -/
def Mnemonic.format : Mnemonic → Format
  | .hlt | .ret => .z
  | .push | .pop | .prn | .call | .jmp | .jeq | .jne | .not => .r
  | .ldi => .ri
  | .add | .sub | .mul | .div | .mod | .cmp | .and | .or | .xor | .shl | .shr => .rr

/-- How many operand bytes a format has (30_encoding.md R48). -/
def Format.operandCount : Format → Nat
  | .z => 0
  | .r => 1
  | .rr => 2
  | .ri => 2

/-- The length of a row's instructions in bytes (30_encoding.md R47, R48). -/
def Mnemonic.length (m : Mnemonic) : Nat := m.format.operandCount + 1

/-- The length of an instruction in bytes. -/
def Instr.length (i : Instr) : Nat := i.mnemonic.length

/-- The rows of the ALU, by the source's own classification (30_encoding.md R46, R51; 41_alu.md R65). -/
def Mnemonic.isAlu : Mnemonic → Bool
  | .add | .sub | .mul | .div | .mod | .cmp | .and | .or | .xor | .not | .shl | .shr => true
  | .hlt | .ret | .push | .pop | .prn | .call | .jmp | .jeq | .jne | .ldi => false

/-- The rows that set `pc` explicitly (30_encoding.md R46). -/
def Mnemonic.setsPc : Mnemonic → Bool
  | .call | .ret | .jmp | .jeq | .jne => true
  | .hlt | .push | .pop | .prn | .not | .ldi => false
  | .add | .sub | .mul | .div | .mod | .cmp | .and | .or | .xor | .shl | .shr => false

/-! The four fields `AABCDDDD` of an opcode byte (30_encoding.md R46). The places of `B`, `C` and `DDDD` are PRESUMED by the
spec (entry 22). They classify only: the decoder compares the whole byte (R52). -/

/-- The `AA` field, bits 7:6: how many operand bytes follow. -/
def operandCountField (ir : Byte) : Nat := ir.toNat / 64

/-- The `B` field, bit 5: 1 for an ALU instruction. -/
def aluField (ir : Byte) : Bool := ir.getLsbD 5

/-- The `C` field, bit 4: 1 for an instruction that sets `pc` explicitly. -/
def setsPcField (ir : Byte) : Bool := ir.getLsbD 4

/-- The `DDDD` field, bits 3:0: the instruction among those with the same `AABC`. -/
def identifierField (ir : Byte) : Nat := ir.toNat % 16

/-- One opcode byte has the layout of R46 for its row. -/
def Mnemonic.hasLayout (m : Mnemonic) (ir : Byte) : Bool :=
  operandCountField ir == m.format.operandCount && aluField ir == m.isAlu && setsPcField ir == m.setsPc

/-- The whole layout of R46 of a map: every row's byte has its row's `AA`, `B` and `C`, and no two rows with the same `AABC` have
the same `DDDD`. Stronger than `OpcodeMap.wf`, which is what decoding needs. -/
def OpcodeMap.hasLayout (o : OpcodeMap) : Bool :=
  Mnemonic.all.all fun m => m.hasLayout (o.byte m) &&
    Mnemonic.all.all fun n => m == n || (o.byte m).toNat / 16 != (o.byte n).toNat / 16 ||
      identifierField (o.byte m) != identifierField (o.byte n)

/-- What decoding needs of any opcode map: each byte selects at most one row (30_encoding.md R52) and bits 7:6 are the
operand count (R46, R47). The bits that only classify are no part of it; they stand in `OpcodeMap.hasLayout`. -/
def OpcodeMap.wf (o : OpcodeMap) : Bool :=
  Mnemonic.all.all fun m =>
    operandCountField (o.byte m) == m.format.operandCount &&
    Mnemonic.all.all fun n => m == n || o.byte m != o.byte n

/-! The decoder -/

/-- The three bytes of the fetch window, `mem[pc]`, `mem[pc+1]`, `mem[pc+2]` (00_scope.md R6; transient, 10_state.md R22). -/
structure Window where
  ir : Byte
  opa : Byte
  opb : Byte
deriving DecidableEq, Repr

/-- The row whose opcode equals the whole byte `ir`; the DIV row counts only if `HAS_DIV` (50_execution_engine.md R101, R103).
With a map that gives one byte to two rows, the first row of the table is taken (DESIGN CHOICE, entry 3). -/
def opcodeRow (p : Params) (ir : Byte) : Option Mnemonic :=
  Mnemonic.all.find? fun m => m.present p && p.opcodes.byte m == ir

/-- The operand check: the whole byte must be at most 7, no masking (30_encoding.md R49; 50_execution_engine.md R104). -/
def regOperand (b : Byte) : Except Cause Reg :=
  if h : b.toNat < 8 then .ok ⟨b.toNat, h⟩ else .error (.registerIndexOutOfRange b)

/-- Format R: only the byte at `pc+1` is an operand (30_encoding.md R48, R50). -/
def decodeR (mk : Reg → Instr) (w : Window) : Except Cause Instr :=
  match regOperand w.opa with
  | .error c => .error c
  | .ok a => .ok (mk a)

/-- Format RR: operand a is checked before operand b (50_execution_engine.md R104). -/
def decodeRR (mk : Reg → Reg → Instr) (w : Window) : Except Cause Instr :=
  match regOperand w.opa with
  | .error c => .error c
  | .ok a =>
    match regOperand w.opb with
    | .error c => .error c
    | .ok b => .ok (mk a b)

/-- Format RI: the byte at `pc+2` is a literal and every value is legal (30_encoding.md R49, R50). -/
def decodeRI (mk : Reg → Byte → Instr) (w : Window) : Except Cause Instr :=
  match regOperand w.opa with
  | .error c => .error c
  | .ok a => .ok (mk a w.opb)

/-- The operand check and extraction of a matched row (50_execution_engine.md R101, OPERAND CHECK). -/
def Mnemonic.decodeOperands (w : Window) : Mnemonic → Except Cause Instr
  | .hlt => .ok .hlt
  | .ret => .ok .ret
  | .push => decodeR .push w
  | .pop => decodeR .pop w
  | .prn => decodeR .prn w
  | .call => decodeR .call w
  | .jmp => decodeR .jmp w
  | .jeq => decodeR .jeq w
  | .jne => decodeR .jne w
  | .not => decodeR .not w
  | .ldi => decodeRI .ldi w
  | .add => decodeRR .add w
  | .sub => decodeRR .sub w
  | .mul => decodeRR .mul w
  | .div => decodeRR .div w
  | .mod => decodeRR .mod w
  | .cmp => decodeRR .cmp w
  | .and => decodeRR .and w
  | .or => decodeRR .or w
  | .xor => decodeRR .xor w
  | .shl => decodeRR .shl w
  | .shr => decodeRR .shr w

/-- DECODE and OPERAND CHECK of 50_execution_engine.md R101: total, every rejection a `Cause`. -/
def decode (p : Params) (w : Window) : Except Cause Instr :=
  match opcodeRow p w.ir with
  | none => .error (.illegalOpcode w.ir)
  | some m => m.decodeOperands w

/-! The encoder -/

/-- A register operand byte `00000aaa` (30_encoding.md R48). -/
def regByte (r : Reg) : Byte := BitVec.ofNat 8 r.val

/-- The operand bytes after the opcode, operand a first (30_encoding.md R45, R48). -/
def Instr.operandBytes : Instr → List Byte
  | .hlt => []
  | .ret => []
  | .push a => [regByte a]
  | .pop a => [regByte a]
  | .prn a => [regByte a]
  | .call a => [regByte a]
  | .jmp a => [regByte a]
  | .jeq a => [regByte a]
  | .jne a => [regByte a]
  | .not a => [regByte a]
  | .ldi a imm => [regByte a, imm]
  | .add a b => [regByte a, regByte b]
  | .sub a b => [regByte a, regByte b]
  | .mul a b => [regByte a, regByte b]
  | .div a b => [regByte a, regByte b]
  | .mod a b => [regByte a, regByte b]
  | .cmp a b => [regByte a, regByte b]
  | .and a b => [regByte a, regByte b]
  | .or a b => [regByte a, regByte b]
  | .xor a b => [regByte a, regByte b]
  | .shl a b => [regByte a, regByte b]
  | .shr a b => [regByte a, regByte b]

/-- The bytes of an instruction from its address upward (30_encoding.md R45, R48). -/
def encode (p : Params) (i : Instr) : List Byte :=
  p.opcodes.byte i.mnemonic :: i.operandBytes

/-- The fetch window that a list of bytes fills from its front; bytes that are missing read as 0. -/
def Window.ofBytes (bs : List Byte) : Window :=
  ⟨bs.getD 0 0, bs.getD 1 0, bs.getD 2 0⟩

/-! Words numbered as spec/opcode_table.json numbers them -/

/-- The window of a word of `nbits` bits: byte 0 is bits 7..0, byte 1 bits 15..8, byte 2 bits 23..16, bits above `nbits` are 0. -/
def tableWindow (nbits w : Nat) : Window :=
  let v := w % 2 ^ nbits
  ⟨BitVec.ofNat 8 v, BitVec.ofNat 8 (v / 2 ^ 8), BitVec.ofNat 8 (v / 2 ^ 16)⟩

/-- What the decoder reads from a word of the table. The parameters are those of the table, which lists DIV (entry 2). -/
def decodeTableWord (nbits w : Nat) : Option Instr :=
  match decode Params.table (tableWindow nbits w) with
  | .ok i => some i
  | .error _ => none

/-! Assembly notation (30_encoding.md R56) -/

/-- The mnemonic in capitals. -/
def Mnemonic.text : Mnemonic → String
  | .hlt => "HLT"
  | .ret => "RET"
  | .push => "PUSH"
  | .pop => "POP"
  | .prn => "PRN"
  | .call => "CALL"
  | .jmp => "JMP"
  | .jeq => "JEQ"
  | .jne => "JNE"
  | .not => "NOT"
  | .ldi => "LDI"
  | .add => "ADD"
  | .sub => "SUB"
  | .mul => "MUL"
  | .div => "DIV"
  | .mod => "MOD"
  | .cmp => "CMP"
  | .and => "AND"
  | .or => "OR"
  | .xor => "XOR"
  | .shl => "SHL"
  | .shr => "SHR"

/-- `R` and the register's index. -/
def regText (r : Reg) : String := "R" ++ toString r.val

/-- The operands in assembly notation: registers as `R0`..`R7`, the literal in decimal, separated by a comma. -/
def Instr.operandText : Instr → String
  | .hlt => ""
  | .ret => ""
  | .push a => " " ++ regText a
  | .pop a => " " ++ regText a
  | .prn a => " " ++ regText a
  | .call a => " " ++ regText a
  | .jmp a => " " ++ regText a
  | .jeq a => " " ++ regText a
  | .jne a => " " ++ regText a
  | .not a => " " ++ regText a
  | .ldi a imm => " " ++ regText a ++ "," ++ toString imm.toNat
  | .add a b => " " ++ regText a ++ "," ++ regText b
  | .sub a b => " " ++ regText a ++ "," ++ regText b
  | .mul a b => " " ++ regText a ++ "," ++ regText b
  | .div a b => " " ++ regText a ++ "," ++ regText b
  | .mod a b => " " ++ regText a ++ "," ++ regText b
  | .cmp a b => " " ++ regText a ++ "," ++ regText b
  | .and a b => " " ++ regText a ++ "," ++ regText b
  | .or a b => " " ++ regText a ++ "," ++ regText b
  | .xor a b => " " ++ regText a ++ "," ++ regText b
  | .shl a b => " " ++ regText a ++ "," ++ regText b
  | .shr a b => " " ++ regText a ++ "," ++ regText b

/-- An instruction in the spec's assembly notation. -/
def Instr.assembly (i : Instr) : String := i.mnemonic.text ++ i.operandText

end Sys2Proof
end

