-- ==== Sys2Proof/Machine/State.lean ====
section
/-! DEFINITION. The whole state of the machine as plain data (10_state.md), the outcome types, and the state after reset. -/

namespace Sys2Proof.Machine

/-- The memory as (address, byte) pairs in one canonical form (`Memory.wf` in Machine/Ops.lean). -/
abbrev Memory := List Host.Cell

/-- The state tuple of 10_state.md, and the parameters the machine was built with. -/
structure State where
  /-- `x[0]`..`x[7]` (R10); `x[7]` is the stack pointer (R11) -/
  regs : Vector Byte 8
  /-- `pc` (R14) -/
  pc : Pc
  /-- `fl`, bits `LGE` (R16, R17) -/
  fl : BitVec 3
  /-- `run` (R18) -/
  run : Bool
  /-- `err` (R19), codes of 60_exceptions.md R120 -/
  err : BitVec 3
  /-- `mem[0..255]` (R20) -/
  mem : Memory
  /-- `out`, oldest value first (R21) -/
  out : List Byte
  /-- the model's own field: `HAS_DIV` and `OPCODE_MAP` (00_scope.md R4); read by the decoder, written by no step
  (DESIGN CHOICE, entry 2) -/
  params : Params
deriving DecidableEq, Repr

/-- Reasons the model would stop without a next state. There is none: every fault of the hardware is a next state with `run`
cleared and `err` written (60_exceptions.md R126), and `Step` is total (70_reset_and_hazards.md R149). Entry 8. -/
inductive Fault where
deriving DecidableEq, Repr

/-- Instructions without a meaning. -/
inductive Refusal where
  /-- Raised by `exec`'s arm of an instruction that has no meaning yet; no arm raises it now. Safe: the model stops. -/
  | notModelled (mnemonic : String)
deriving DecidableEq, Repr

/-- What a step answers. -/
abbrev Result := Host.Outcome State Fault Refusal

/-- The machine right after reset (10_state.md R24) with the default parameters and nothing listed in memory. The values of
`x[0]`..`x[6]`, `fl` and `err` are the spec's decisions D6, D7, D9 (entries 5, 8). -/
def State.reset : State where
  regs := #v[Config.gprReset, Config.gprReset, Config.gprReset, Config.gprReset,
             Config.gprReset, Config.gprReset, Config.gprReset, Config.spReset]
  pc := Config.pcReset
  fl := Config.flReset
  run := true
  err := 0
  mem := []
  out := []
  params := Params.standard

end Sys2Proof.Machine
end

