-- ==== Sys2Proof/Machine/Ops.lean ====
section
/-! DEFINITION. The named operations over registers, memory and the output, raising a fault (the hardware's one exception
entry; there is no return from one, 60_exceptions.md R130), and the fetch. -/

namespace Sys2Proof.Machine

/-! Registers (10_state.md R10 to R12) -/

/-- `x[r]`. -/
def State.reg (s : State) (r : Reg) : Byte := s.regs[r]

/-- `x[r] <- v`. -/
def State.setReg (s : State) (r : Reg) (v : Byte) : State :=
  { s with regs := s.regs.set r.val v r.isLt }

/-- `sp`, the same storage as `x[7]` (10_state.md R11). -/
def State.sp (s : State) : Byte := s.reg Config.spIndex

/-- `sp <- v`. -/
def State.setSp (s : State) (v : Byte) : State := s.setReg Config.spIndex v

/-! The program counter (10_state.md R14, R15) -/

/-- `pc <- pc + n`; nine bits, so that no increment from a pc that can execute wraps (50_execution_engine.md R113). -/
def State.advance (s : State) (n : Nat) : State := { s with pc := s.pc + BitVec.ofNat 9 n }

/-- `pc <- zext_9(target)` (43_control_transfer.md R90). -/
def State.jumpTo (s : State) (target : Byte) : State := { s with pc := target.zeroExtend 9 }

/-! Memory cells. The list laws hold for every list; `Memory.wf` is the canonical form. -/

/-- The byte at an address: the listed one, else the fill byte (entry 4). -/
def Memory.read : Memory → Nat → Byte
  | [], _ => Config.fillByte
  | (k, b) :: m, a => if k = a then b else Memory.read m a

/-- The memory with no entry for an address. -/
def Memory.erase : Memory → Nat → Memory
  | [], _ => []
  | (k, b) :: m, a => if k = a then Memory.erase m a else (k, b) :: Memory.erase m a

/-- The memory with an entry put before the first higher address. -/
def Memory.insert : Memory → Nat → Byte → Memory
  | [], a, v => [(a, v)]
  | (k, b) :: m, a, v => if a < k then (a, v) :: (k, b) :: m else (k, b) :: Memory.insert m a v

/-- `mem[a] <- v`; writing the fill byte removes the entry. -/
def Memory.write (m : Memory) (a : Nat) (v : Byte) : Memory :=
  if v = Config.fillByte then Memory.erase m a else Memory.insert (Memory.erase m a) a v

/-- Addresses strictly rising from `lo` on, all inside the address space, no entry equal to the fill byte. -/
def Memory.wfFrom : Nat → Memory → Bool
  | _, [] => true
  | lo, (k, b) :: m =>
    decide (lo ≤ k) && decide (k < Config.memSize) && b != Config.fillByte && Memory.wfFrom (k + 1) m

/-- The canonical form. -/
def Memory.wf (m : Memory) : Bool := Memory.wfFrom 0 m

/-! The access primitives (20_memory.md R31, R32) -/

/-- `MemRead(addr, 1)`: bounds-checked, never wrapped, no side effect. -/
def memRead (s : State) (addr : Nat) : Except Cause Byte :=
  if addr < Config.memSize then .ok (s.mem.read addr) else .error (.addressOutOfRange addr)

/-- `MemWrite(addr, 1, v)`: bounds-checked; one cell changes and nothing else. -/
def memWrite (s : State) (addr : Nat) (v : Byte) : Except Cause State :=
  if addr < Config.memSize then .ok { s with mem := s.mem.write addr v } else .error (.addressOutOfRange addr)

/-! The output stream -/

/-- `Emit(v)` (00_scope.md R6; 10_state.md R21). -/
def State.emit (s : State) (v : Byte) : State := { s with out := s.out ++ [v] }

/-! Faults -/

/-- The code a fault writes to `err` (60_exceptions.md R120, D9; entry 8). -/
def faultCode : Cause → BitVec 3
  | .divideByZero _ => 1
  | .illegalOpcode _ => 2
  | .registerIndexOutOfRange _ => 3
  | .addressOutOfRange _ => 4

/-- Fault entry, the whole effect of the step that raises it (60_exceptions.md R126): `run <- 0`, `err <- code`. -/
def raise (c : Cause) (s : State) : State := { s with run := false, err := faultCode c }

/-- An instruction either completes all its writes or raises a fault from the state before it (50_execution_engine.md R107). -/
def atomically (s : State) (r : Except Cause State) : Result :=
  match r with
  | .ok t => .next t
  | .error c => .next (raise c s)

/-! The stack (42_stack.md R85): the pointer is decremented before a write and incremented after a read, modulo 256 -/

/-- Decrement `sp`, then write at the new `sp` the byte that `v` reads from the state AFTER the decrement (R86, D14). -/
def pushByte (s : State) (v : State → Byte) : Except Cause State :=
  let s1 := s.setSp (s.sp - 1)
  memWrite s1 s1.sp.toNat (v s1)

/-- Read at `sp`, hand the byte to `put`, and only then increment `sp` (R87, D14). -/
def popByte (s : State) (put : State → Byte → State) : Except Cause State :=
  match memRead s s.sp.toNat with
  | .error c => .error c
  | .ok v =>
    let s1 := put s v
    .ok (s1.setSp (s1.sp + 1))

/-! Fetch (50_execution_engine.md R101, R102) -/

/-- The bytes the memory holds at `pc`, `pc+1`, `pc+2`: the fetch window `(ir, opa, opb)` of a `pc` up to 253. -/
def State.window (s : State) : Window :=
  ⟨s.mem.read s.pc.toNat, s.mem.read (s.pc.toNat + 1), s.mem.read (s.pc.toNat + 2)⟩

/-- The three reads at `pc`, `pc+1`, `pc+2`, after the one bounds test `pc > 253` (R101, D29). -/
def fetch (s : State) : Except Cause Window :=
  if 253 < s.pc.toNat then .error (.addressOutOfRange s.pc.toNat)
  else
    match memRead s s.pc.toNat, memRead s (s.pc.toNat + 1), memRead s (s.pc.toNat + 2) with
    | .ok ir, .ok opa, .ok opb => .ok ⟨ir, opa, opb⟩
    | .error c, _, _ => .error c
    | _, .error c, _ => .error c
    | _, _, .error c => .error c

/-- FETCH, DECODE and OPERAND CHECK of a running machine (50_execution_engine.md R101). -/
def fetchDecode (s : State) : Except Cause Instr :=
  match fetch s with
  | .error c => .error c
  | .ok w => decode s.params w

/-! Placing an instruction where the next fetch finds it (Machine/Step.lean, `State.withFetchWord`) -/

/-- Write a cell if the address exists. -/
def Memory.put (m : Memory) (a : Nat) (v : Byte) : Memory :=
  if a < Config.memSize then m.write a v else m

/-- The window's bytes at `pc`, `pc+1`, `pc+2`, the machine running, and `HAS_DIV` on if the opcode is DIV's. -/
def State.placeWindow (s : State) (w : Window) : State :=
  { s with
    mem := ((s.mem.put s.pc.toNat w.ir).put (s.pc.toNat + 1) w.opa).put (s.pc.toNat + 2) w.opb
    run := true
    params := { s.params with hasDiv := s.params.hasDiv || w.ir == s.params.opcodes.div } }

end Sys2Proof.Machine
end

