-- ==== Sys2Proof/Machine/Flags.lean ====
section
/-! DEFINITION. The flag register `fl`, pattern `LGE` (10_state.md R16; bit positions PRESUMED by the spec, D2, entry 6), and
the one computation that writes it (41_alu.md R71). -/

namespace Sys2Proof.Machine

/-- `fl.E`, bit 0. -/
def State.flagE (s : State) : Bool := s.fl.getLsbD 0

/-- `fl.G`, bit 1. No instruction reads it (10_state.md R17). -/
def State.flagG (s : State) : Bool := s.fl.getLsbD 1

/-- `fl.L`, bit 2. No instruction reads it (10_state.md R17). -/
def State.flagL (s : State) : Bool := s.fl.getLsbD 2

/-- The flags CMP sets: exactly one of Equal, Less, Greater, unsigned (41_alu.md R71, R78). -/
def compareFlags (va vb : Byte) : BitVec 3 :=
  if va.toNat = vb.toNat then 0b001
  else if va.toNat < vb.toNat then 0b100
  else 0b010

/-- `fl <- v`. -/
def State.setFlags (s : State) (v : BitVec 3) : State := { s with fl := v }

end Sys2Proof.Machine
end

