-- ==== Sys2Proof/Machine/Operands.lean ====
section
/-! DEFINITION. How the operand forms reach the datapath: the register and literal operands of the formats R, RR and RI, the
implicit stack and pc operands. The operand range check is the decoder's (Decode.lean, `regOperand`). -/

namespace Sys2Proof.Machine

/-- Formats R and RI write `x[a]` and go on to the next instruction: the register-file write port and the sequential pc
(50_execution_engine.md R112, R113). -/
def writeBack (s : State) (a : Reg) (v : Byte) (length : Nat) : State :=
  (s.setReg a v).advance length

/-- Format RR of the ALU: both operands are read once, before the write, and the result goes to `x[a]` (41_alu.md R65). -/
def aluWriteBack (f : Byte → Byte → Byte) (a b : Reg) (s : State) : State :=
  writeBack s a (f (s.reg a) (s.reg b)) 3

/-- Format RR with a divisor: `DivideByZero` before anything is written if `x[b]` is 0 (41_alu.md R69, R70). -/
def aluDivideBack (f : Byte → Byte → Byte) (a b : Reg) (s : State) : Except Cause State :=
  if s.reg b = 0 then .error (.divideByZero s.pc) else .ok (aluWriteBack f a b s)

/-- The return address CALL pushes, `(pc + 2)[7:0]` (43_control_transfer.md R91). -/
def returnAddress (s : State) : Byte := BitVec.ofNat 8 (s.pc.toNat + 2)

/-- The two ways out of a conditional jump: `zext_9(x[a])`, or the instruction after it (43_control_transfer.md R94, R95). -/
def branch (taken : Bool) (a : Reg) (s : State) : State :=
  if taken then s.jumpTo (s.reg a) else s.advance 2

end Sys2Proof.Machine
end

