-- ==== Sys2Proof/Machine/Alu.lean ====
section
/-! DEFINITION. The ALU instructions (41_alu.md). Operands are taken as unsigned integers, the result is computed exactly and
then reduced to 8 bits (R65, R78). -/

namespace Sys2Proof.Machine

/-! The results -/

/-- `(va + vb) mod 256` (R66). -/
def aluAdd (va vb : Byte) : Byte := BitVec.ofNat 8 (va.toNat + vb.toNat)

/-- `(va - vb) mod 256` (R67). -/
def aluSub (va vb : Byte) : Byte := BitVec.ofInt 8 ((va.toNat : Int) - (vb.toNat : Int))

/-- `(va * vb) mod 256` (R68). -/
def aluMul (va vb : Byte) : Byte := BitVec.ofNat 8 (va.toNat * vb.toNat)

/-- `va - vb * floor(va / vb)`, for a divisor that is not 0 (R69). -/
def aluMod (va vb : Byte) : Byte := BitVec.ofNat 8 (va.toNat - vb.toNat * (va.toNat / vb.toNat))

/-- `floor(va / vb)`, for a divisor that is not 0 (R70). -/
def aluDiv (va vb : Byte) : Byte := BitVec.ofNat 8 (va.toNat / vb.toNat)

/-- Bitwise and (R72). -/
def aluAnd (va vb : Byte) : Byte := va &&& vb

/-- Bitwise or (R73). -/
def aluOr (va vb : Byte) : Byte := va ||| vb

/-- Bitwise exclusive or (R74). -/
def aluXor (va vb : Byte) : Byte := va ^^^ vb

/-- `255 - va` (R75). -/
def aluNot (va : Byte) : Byte := BitVec.ofNat 8 (255 - va.toNat)

/-- `(va * 2^vb) mod 256`; the count is not reduced (R76, D28; entry 16). -/
def aluShl (va vb : Byte) : Byte := BitVec.ofNat 8 (va.toNat * 2 ^ vb.toNat)

/-- `floor(va / 2^vb)`, logical; the count is not reduced (R77, D28; entry 16). -/
def aluShr (va vb : Byte) : Byte := BitVec.ofNat 8 (va.toNat / 2 ^ vb.toNat)

/-! The meanings -/

/-- ADD a,b (R66). -/
def execAdd (a b : Reg) (s : State) : Result := .next (aluWriteBack aluAdd a b s)

/-- SUB a,b (R67). -/
def execSub (a b : Reg) (s : State) : Result := .next (aluWriteBack aluSub a b s)

/-- MUL a,b (R68). -/
def execMul (a b : Reg) (s : State) : Result := .next (aluWriteBack aluMul a b s)

/-- DIV a,b (R70): present only if `HAS_DIV`, which is the decoder's business; DivideByZero on a zero divisor. -/
def execDiv (a b : Reg) (s : State) : Result := atomically s (aluDivideBack aluDiv a b s)

/-- MOD a,b (R69): DivideByZero on a zero divisor. -/
def execMod (a b : Reg) (s : State) : Result := atomically s (aluDivideBack aluMod a b s)

/-- CMP a,b: all three flags written, no register (R71). -/
def execCmp (a b : Reg) (s : State) : Result :=
  .next ((s.setFlags (compareFlags (s.reg a) (s.reg b))).advance 3)

/-- AND a,b (R72). -/
def execAnd (a b : Reg) (s : State) : Result := .next (aluWriteBack aluAnd a b s)

/-- OR a,b (R73). -/
def execOr (a b : Reg) (s : State) : Result := .next (aluWriteBack aluOr a b s)

/-- XOR a,b (R74; D4, entry 9). -/
def execXor (a b : Reg) (s : State) : Result := .next (aluWriteBack aluXor a b s)

/-- NOT a: two bytes long, the third window byte is no operand (R75; C14). -/
def execNot (a : Reg) (s : State) : Result := .next (writeBack s a (aluNot (s.reg a)) 2)

/-- SHL a,b: logical left (R76; C3). -/
def execShl (a b : Reg) (s : State) : Result := .next (aluWriteBack aluShl a b s)

/-- SHR a,b: logical right (R77; C3). -/
def execShr (a b : Reg) (s : State) : Result := .next (aluWriteBack aluShr a b s)

end Sys2Proof.Machine
end

