-- ==== Sys2Proof/Machine/Basic.lean ====
section
/-! DEFINITION. HLT, LDI, PRN (40_basic.md). -/

namespace Sys2Proof.Machine

/-- HLT: `run <- 0`; `pc` stays at the HLT (40_basic.md R60, D11; entry 10). -/
def execHlt (s : State) : Result := .next { s with run := false }

/-- LDI a,imm: `x[a] <- imm` (40_basic.md R61). -/
def execLdi (a : Reg) (imm : Byte) (s : State) : Result := .next (writeBack s a imm 3)

/-- PRN a: `Emit(x[a])` (40_basic.md R62). -/
def execPrn (a : Reg) (s : State) : Result := .next ((s.emit (s.reg a)).advance 2)

end Sys2Proof.Machine
end

