-- ==== Sys2Proof/Machine/Control.lean ====
section
/-! DEFINITION. CALL, RET, JMP, JEQ, JNE (43_control_transfer.md). -/

namespace Sys2Proof.Machine

/-- CALL a: push the return address, then jump to `x[a]`, read after the push (R91, D14; entry 12). -/
def execCall (a : Reg) (s : State) : Result :=
  atomically s ((pushByte s returnAddress).map fun t => t.jumpTo (t.reg a))

/-- RET: pop the top of the stack into `pc` (R92). -/
def execRet (s : State) : Result :=
  atomically s (popByte s State.jumpTo)

/-- JMP a (R93). -/
def execJmp (a : Reg) (s : State) : Result := .next (s.jumpTo (s.reg a))

/-- JEQ a: taken if `fl.E` is 1 (R94). -/
def execJeq (a : Reg) (s : State) : Result := .next (branch s.flagE a s)

/-- JNE a: taken if `fl.E` is 0 (R95). -/
def execJne (a : Reg) (s : State) : Result := .next (branch (!s.flagE) a s)

end Sys2Proof.Machine
end

