-- ==== Sys2Proof/Machine/Stack.lean ====
section
/-! DEFINITION. PUSH and POP (42_stack.md). -/

namespace Sys2Proof.Machine

/-- PUSH a: `x[a]` is read after the decrement (R86, D14; entry 12). -/
def execPush (a : Reg) (s : State) : Result :=
  atomically s ((pushByte s (fun s1 => s1.reg a)).map fun t => t.advance 2)

/-- POP a: `x[7]` is incremented after the write of `x[a]` (R87, D14; entry 12). -/
def execPop (a : Reg) (s : State) : Result :=
  atomically s ((popByte s (fun s1 v => s1.setReg a v)).map fun t => t.advance 2)

end Sys2Proof.Machine
end

