-- ==== Sys2Proof/Machine/Step.lean ====
section
/-! DEFINITION. The one step of the machine (50_execution_engine.md R101), and placing an instruction at the next fetch. -/

namespace Sys2Proof.Machine

/-- `Step()` (R101): nothing when stopped (R108); else fetch, decode and operand check, any fault of which is the whole effect
(60_exceptions.md R126); else execute. -/
def step (s : State) : Host.Outcome State Fault Refusal :=
  if s.run then
    match fetchDecode s with
    | .ok i => exec i s
    | .error c => .next (raise c s)
  else .next s

/-- The state with a table word stored where the next step fetches: what the load port does at launch, with the machine
running, and `HAS_DIV` switched on when the word is DIV's (entries 2, 15). A `pc` above 253 stays, and its fetch still faults. -/
def State.withFetchWord (s : State) (nbits w : Nat) : State :=
  s.placeWindow (tableWindow nbits w)

end Sys2Proof.Machine
end

