-- ==== Sys2Proof/Machine/HostPort.lean ====
section
/-! DEFINITION. What the host can do to the machine and see of it (50_execution_engine.md R114, R115; 60_exceptions.md R136;
70_reset_and_hazards.md R140 to R144). These are actions between runs and read-only views, no part of `step`. -/

namespace Sys2Proof.Machine

/-! In: reset and the load port -/

/-- What asserting reset does: every register to its reset value, `out` emptied, `mem` kept (70_reset_and_hazards.md R140,
R144), the parameters of the build kept. -/
def State.resetRegisters (s : State) : State :=
  { State.reset with mem := s.mem, params := s.params }

/-- One write of the load port, `mem[ld_addr] <- ld_data`; the address is 8 bits wide (50_execution_engine.md R114). -/
def State.loadCell (s : State) (addr data : Byte) : State :=
  { s with mem := s.mem.write addr.toNat data }

/-- A reset pulse. The load port is honoured only while reset is asserted, so the loads, oldest first, belong to the pulse;
execution starts with the first step after it (70_reset_and_hazards.md R140). -/
def State.resetPulse (s : State) (loads : List (Byte × Byte)) : State :=
  loads.foldl (fun t l => t.loadCell l.1 l.2) s.resetRegisters

/-- `IMAGE`: 256 bytes (70_reset_and_hazards.md R141). -/
abbrev Image := Vector Byte 256

/-- The canonical memory that holds a list of bytes from an address on. -/
def Memory.ofBytes : Nat → List Byte → Memory
  | _, [] => []
  | a, b :: bs =>
    if b = Config.fillByte then Memory.ofBytes (a + 1) bs else (a, b) :: Memory.ofBytes (a + 1) bs

/-- The launch state: the reset values and `mem[i] = IMAGE[i]` for all `i` (70_reset_and_hazards.md R141), on a machine built
with parameters `p`. -/
def launch (p : Params) (image : Image) : State :=
  { State.reset with mem := Memory.ofBytes 0 image.toList, params := p }

/-- The image of a program of `n` bytes: its bytes from address 0, zeros after them (70_reset_and_hazards.md R141, D8). The
host refuses an empty program and one of more than 256 bytes (R142, D27; entry 15). -/
def imageOfProgram (bytes : List Byte) : Option Image :=
  if bytes.length = 0 ∨ Config.memSize < bytes.length then none
  else some (Vector.ofFn fun i => bytes.getD i.val 0x00)

/-! Out: `halted`, `err`, the PRN port, the debug view -/

/-- The `halted` output, `not run` (50_execution_engine.md R114). -/
def State.halted (s : State) : Bool := !s.run

/-- The `err` output (50_execution_engine.md R114; 10_state.md R19). -/
def State.errPort (s : State) : BitVec 3 := s.err

/-- The PRN events between two states of a run, oldest first: what `out` gained (50_execution_engine.md R115). -/
def prnEvents (before after : State) : List Byte := after.out.drop before.out.length

/-- The read-only debug view (60_exceptions.md R136, D25; entry 19). -/
structure DebugView where
  pc : Pc
  /-- `mem[pc]`, `mem[pc+1]`, `mem[pc+2]`; `none` for an address above 255 -/
  window : List (Option Byte)
  x : Vector Byte 8
  fl : BitVec 3
deriving DecidableEq, Repr

/-- A byte of the view, absent above address 255. -/
def debugByte (s : State) (addr : Nat) : Option Byte :=
  if addr < Config.memSize then some (s.mem.read addr) else none

/-- The view of a state. -/
def State.debugView (s : State) : DebugView where
  pc := s.pc
  window := [debugByte s s.pc.toNat, debugByte s (s.pc.toNat + 1), debugByte s (s.pc.toNat + 2)]
  x := s.regs
  fl := s.fl

end Sys2Proof.Machine
end

