-- ==== Sys2Proof/Safety.lean ====
section
/-! DEFINITION. What counts as a finished run, a faulted run, a legal state, in the terms the statements use. -/

namespace Sys2Proof.Machine

/-- A clean halt: stopped with no cause recorded, reached only by HLT (50_execution_engine.md R109; 60_exceptions.md R126). -/
def State.cleanHalt (s : State) : Prop := s.run = false ∧ s.err = 0

/-- A faulted stop (50_execution_engine.md R109). It is never a successful end of a program (60_exceptions.md R126). -/
def State.faulted (s : State) : Prop := s.run = false ∧ s.err ≠ 0

/-- The invariants of 10_state.md R25, items 2 to 4, with the canonical form of memory and the bound on the fault codes of
60_exceptions.md R120 beside them. Item 1 is the width of a register; item 5 is about steps. -/
structure State.Inv (s : State) : Prop where
  pc_le : s.pc.toNat ≤ 256
  fl_legal : s.fl = 0b000 ∨ s.fl = 0b001 ∨ s.fl = 0b010 ∨ s.fl = 0b100
  err_stopped : s.err ≠ 0 → s.run = false
  err_le : s.err.toNat ≤ 4
  mem_wf : s.mem.wf = true

end Sys2Proof.Machine
end

