-- ==== Sys2Proof/Certificates/Slice0/Obligations.lean ====
section
/-! DEFINITION. The statements for the provers. The helpers of the first part only abbreviate; each obligation's docstring says
which sentence of spec/ it formalises. A statement whose docstring says "rests on" a decision of the spec, or on an entry of the log, is
no plain rule of the source. -/

namespace Sys2Proof.Claims

open Sys2Proof.Machine

/-- A machine whose next step fetches: running, and the whole window inside memory (50_execution_engine.md R101, R102). -/
def Ready (s : State) : Prop := s.run = true ∧ s.pc.toNat ≤ 253

/-- The machine has the spec's opcode bytes (30_encoding.md R51). -/
def StandardMap (s : State) : Prop := s.params.opcodes = OpcodeMap.standard

/-- Every byte of memory reads as before. -/
def SameMemory (s t : State) : Prop := ∀ addr : Nat, t.mem.read addr = s.mem.read addr

/-- Every byte of memory but the one at `stored` reads as before. -/
def SameMemoryBut (stored : Nat) (s t : State) : Prop :=
  ∀ addr : Nat, addr ≠ stored → t.mem.read addr = s.mem.read addr

/-- Registers outside `dests`, the flags, `run`, `err`, the output and the parameters are as before. -/
def Frame (dests : List Reg) (s t : State) : Prop :=
  (∀ r : Reg, r ∉ dests → t.reg r = s.reg r) ∧
  t.fl = s.fl ∧ t.run = s.run ∧ t.err = s.err ∧ t.out = s.out ∧ t.params = s.params

/-- Format R at a step: the byte at `pc+1` is checked, the byte at `pc+2` is not, and the checked instruction runs. -/
def ChecksOperandR (op : Reg → Instr) (code : Byte) : Prop :=
  ∀ s : State, Ready s → StandardMap s → s.window.ir = code →
    (7 < s.window.opa.toNat → step s = .next (raise (.registerIndexOutOfRange s.window.opa) s)) ∧
    (∀ a : Reg, s.window.opa.toNat = a.val → step s = exec (op a) s)

/-- Format RR at a step: operand a is checked, then operand b, and the checked instruction runs. -/
def ChecksOperandsRR (op : Reg → Reg → Instr) (code : Byte) : Prop :=
  ∀ s : State, Ready s → StandardMap s → s.window.ir = code →
    (7 < s.window.opa.toNat → step s = .next (raise (.registerIndexOutOfRange s.window.opa) s)) ∧
    (s.window.opa.toNat ≤ 7 → 7 < s.window.opb.toNat →
      step s = .next (raise (.registerIndexOutOfRange s.window.opb) s)) ∧
    (∀ a b : Reg, s.window.opa.toNat = a.val → s.window.opb.toNat = b.val → step s = exec (op a b) s)

/-- The bytes of a format RR instruction under the spec's map. -/
def EncodesRR (op : Reg → Reg → Instr) (code : Byte) : Prop :=
  ∀ a b : Reg, encode Params.standard (op a b) = [code, BitVec.ofNat 8 a.val, BitVec.ofNat 8 b.val]

/-- The bytes of a format R instruction under the spec's map. -/
def EncodesR (op : Reg → Instr) (code : Byte) : Prop :=
  ∀ a : Reg, encode Params.standard (op a) = [code, BitVec.ofNat 8 a.val]

/-- The effect of a two-operand ALU instruction that writes `x[a]`: the result is related to the two operand values by `P`,
`pc` goes up by 3, nothing else changes. -/
def WritesResult (op : Reg → Reg → Instr) (P : Nat → Nat → Nat → Prop) : Prop :=
  ∀ (a b : Reg) (s : State), ∃ t : State, exec (op a b) s = .next t ∧
    P (s.reg a).toNat (s.reg b).toNat (t.reg a).toNat ∧
    t.pc = s.pc + 3 ∧ Frame [a] s t ∧ SameMemory s t

/-- A whole rule of 41_alu.md for a two-operand instruction that writes `x[a]`: encoding, operand faults, effect. -/
def AluRule (op : Reg → Reg → Instr) (code : Byte) (P : Nat → Nat → Nat → Prop) : Prop :=
  EncodesRR op code ∧ ChecksOperandsRR op code ∧ WritesResult op P

end Sys2Proof.Claims

open Sys2Proof Sys2Proof.Machine Sys2Proof.Claims

/-! ## Encoding -/

/-- Decoding the bytes of a well-formed instruction gives it back, for every map in which each byte selects at most one row,
for `HAS_DIV` on and off, and whatever bytes follow in the window. 30_encoding.md sections 1 to 4 (R45, R48 to R50, R52). -/
def Obligations.DecodeInvertsEncode : Prop :=
  ∀ p : Params, p.opcodes.wf = true → ∀ i : Instr, i.wellFormed p = true → ∀ tail : List Byte,
    decode p (Window.ofBytes (encode p i ++ tail)) = .ok i

/-- What decodes is well formed, and its encoding is the front of the window byte for byte: nothing is masked or ignored in
the instruction's own bytes. 30_encoding.md sections 3 and 4 (R49, R52). That nothing is masked or ignored rests on D15 and
D16 (entry 13). -/
def Obligations.DecodedInstructionReencodes : Prop :=
  ∀ (p : Params) (w : Window) (i : Instr), decode p w = .ok i →
    i.wellFormed p = true ∧ encode p i = [w.ir, w.opa, w.opb].take i.length

/-- A few words written out from the table of 30_encoding.md R51 decode to what they stand for. The byte values rest on the
spec's decision D1 (entry 1). -/
def Obligations.StandardWordsDecode : Prop :=
  (∀ opa opb : Byte, decode Params.standard ⟨0x01, opa, opb⟩ = .ok .hlt) ∧
  (∀ opb : Byte, decode Params.standard ⟨0x47, 0x07, opb⟩ = .ok (.prn 7)) ∧
  (∀ opb : Byte, decode Params.standard ⟨0x82, 0x03, opb⟩ = .ok (.ldi 3 opb)) ∧
  decode Params.standard ⟨0xAC, 0x01, 0x06⟩ = .ok (.shl 1 6) ∧
  (∀ opb : Byte, decode Params.standard ⟨0x50, 0x02, opb⟩ = .ok (.call 2)) ∧
  decode Params.table ⟨0xA3, 0x04, 0x05⟩ = .ok (.div 4 5)

/-- The four fields `AABCDDDD` of an opcode byte make up the byte, and with the spec's table they say of every instruction
what 30_encoding.md section 1 (R46) says: `AA` is its number of operand bytes; `B` is 1 exactly for the ALU's instructions,
which leave memory and output alone and, where the machine goes on, go to the next instruction; `C` is 1 exactly for the
instructions that can send a machine that goes on elsewhere; `DDDD` tells apart the rows with the same `AABC`. The byte values
rest on D1 (entry 1), the places of `B`, `C` and `DDDD` on general knowledge (entry 22), the rows DIV and XOR on D3 and D4
(entries 2, 9). -/
def Obligations.OpcodeFieldsClassifyInstructions : Prop :=
  (∀ ir : Byte, ir.toNat =
    64 * operandCountField ir + 32 * (aluField ir).toNat + 16 * (setsPcField ir).toNat + identifierField ir) ∧
  (∀ i : Instr, operandCountField (OpcodeMap.standard.byte i.mnemonic) = i.operandBytes.length ∧
    (aluField (OpcodeMap.standard.byte i.mnemonic) = true ↔ i.mnemonic ∈
      ([.add, .sub, .mul, .div, .mod, .cmp, .and, .or, .xor, .not, .shl, .shr] : List Mnemonic)) ∧
    (aluField (OpcodeMap.standard.byte i.mnemonic) = true → ∀ s t : State, exec i s = .next t →
      SameMemory s t ∧ t.out = s.out ∧ (t.run = true → t.pc = s.pc + BitVec.ofNat 9 i.length)) ∧
    (setsPcField (OpcodeMap.standard.byte i.mnemonic) = true ↔ i.mnemonic ∈
      ([.call, .ret, .jmp, .jeq, .jne] : List Mnemonic)) ∧
    (setsPcField (OpcodeMap.standard.byte i.mnemonic) = true ↔
      ∃ s t : State, exec i s = .next t ∧ t.run = true ∧ t.pc ≠ s.pc + BitVec.ofNat 9 i.length)) ∧
  (∀ m n : Mnemonic, (OpcodeMap.standard.byte m).toNat / 16 = (OpcodeMap.standard.byte n).toNat / 16 →
    identifierField (OpcodeMap.standard.byte m) = identifierField (OpcodeMap.standard.byte n) → m = n)

/-- With the spec's map the decoder refuses every byte that is no row of 30_encoding.md R51, whatever follows it, and refuses
DIV's byte exactly when `HAS_DIV` is off. 30_encoding.md section 5 (R53). Rests on D1 and D3 (entries 1, 2); that XOR's byte
is an opcode rests on D4 (entry 9). -/
def Obligations.OtherBytesAreIllegal : Prop :=
  ∀ (hasDiv : Bool) (w : Window),
    decode ⟨hasDiv, OpcodeMap.standard⟩ w = .error (.illegalOpcode w.ir) ↔
      w.ir ∉ ([0x01, 0x11, 0x45, 0x46, 0x47, 0x50, 0x54, 0x55, 0x56, 0x69, 0x82, 0xA0, 0xA1, 0xA2, 0xA4, 0xA7, 0xA8, 0xAA,
        0xAB, 0xAC, 0xAD] : List Byte) ∧ (w.ir = 0xA3 → hasDiv = false)

/-- A word of the opcode table, placed at the next fetch, is the instruction the decoder reads from it and the next step runs
exactly it. The model's own (entries 2, 15). -/
def Obligations.PlacedTableWordRuns : Prop :=
  ∀ (s : State) (nbits w : Nat) (i : Instr), s.pc.toNat ≤ 253 → StandardMap s →
    decodeTableWord nbits w = some i → step (s.withFetchWord nbits w) = exec i (s.withFetchWord nbits w)

/-! ## The step -/

/-- A step of a running machine whose bytes at `pc` decode to `i` is `exec i` of the same state: `exec` moves `pc` itself, and
the step adds nothing. 50_execution_engine.md section 1 (R101, R105). -/
def Obligations.StepRunsDecodedInstruction : Prop :=
  ∀ (s : State) (i : Instr), Ready s → decode s.params s.window = .ok i →
    fetchDecode s = .ok i ∧ step s = exec i s

/-- The `Step` function phase by phase: stopped; FETCH; DECODE; OPERAND CHECK; EXECUTE. 50_execution_engine.md section 1
(R101). The stopped step rests on D21, the order of the checks on D12 (entry 10), the fault on an operand byte above 7, with
no masking, on D15 (entry 13), the check of the whole window on the spec's own inference in R102. -/
def Obligations.StepFollowsItsPhases : Prop :=
  ∀ s : State,
    (s.run = false → step s = .next s) ∧
    (s.run = true → 253 < s.pc.toNat → step s = .next (raise (.addressOutOfRange s.pc.toNat) s)) ∧
    (Ready s → (∀ m : Mnemonic, m.present s.params = true → s.params.opcodes.byte m ≠ s.window.ir) →
      step s = .next (raise (.illegalOpcode s.window.ir) s)) ∧
    (Ready s → s.params.opcodes.wf = true → ∀ m : Mnemonic, m.present s.params = true →
      s.params.opcodes.byte m = s.window.ir →
        (m.format ≠ .z → 7 < s.window.opa.toNat →
          step s = .next (raise (.registerIndexOutOfRange s.window.opa) s)) ∧
        (m.format = .rr → s.window.opa.toNat ≤ 7 → 7 < s.window.opb.toNat →
          step s = .next (raise (.registerIndexOutOfRange s.window.opb) s)) ∧
        (∀ i : Instr, i.mnemonic = m → i.operandBytes = [s.window.opa, s.window.opb].take m.format.operandCount →
          step s = exec i s))

/-- 70_reset_and_hazards.md R149: every state has a next state, so there is no stuck state and runs of every length exist; and
from every state the machine either reaches `run = 0` after finitely many steps or runs on without end. -/
def Obligations.EveryRunGoesOn : Prop :=
  (∀ s : State, ∃ t : State, step s = .next t) ∧
  (∀ (k : Nat) (s : State), ∃ t : State, Host.Core.run Sys2Proof.core k s = .next t) ∧
  (∀ s : State,
    (∃ (k : Nat) (t : State), Host.Core.run Sys2Proof.core k s = .next t ∧ t.run = false) ∨
    (∀ k : Nat, ∃ t : State, Host.Core.run Sys2Proof.core k s = .next t ∧ t.run = true))

/-- A stopped machine is a fixed point of any number of steps. 50_execution_engine.md section 1 (R108). Rests on the
spec's decision D21 (entry 10). -/
def Obligations.StoppedMachineStays : Prop :=
  ∀ s : State, s.run = false → ∀ k : Nat, Host.Core.run Sys2Proof.core k s = .next s

/-! ## Faults -/

/-- `AddressOutOfRange` is raised, by fetch or by execute, exactly when a step begins with `pc` in {254, 255, 256}.
60_exceptions.md section 1 (R121). That the whole window is checked is the spec's own inference ("derived: from "always read,
even if unused by the opcode" and the bounds rule of §4.1"). The premise `State.Inv` is `StepKeepsInvariant`'s. That `pc` has
9 bits and reaches 256 rests on D5 (entry 7). -/
def Obligations.AddressFaultExactlyAtTheTop : Prop :=
  ∀ s : State, s.Inv → s.run = true →
    ((∃ addr : Nat, step s = .next (raise (.addressOutOfRange addr) s)) ↔
      (s.pc.toNat = 254 ∨ s.pc.toNat = 255 ∨ s.pc.toNat = 256)) ∧
    ((∃ addr : Nat, fetchDecode s = .error (.addressOutOfRange addr)) ↔
      (s.pc.toNat = 254 ∨ s.pc.toNat = 255 ∨ s.pc.toNat = 256)) ∧
    ((s.pc.toNat = 254 ∨ s.pc.toNat = 255 ∨ s.pc.toNat = 256) →
      step s = .next (raise (.addressOutOfRange s.pc.toNat) s))

/-- 60_exceptions.md R122: `IllegalOpcode` is raised when the fetched byte is none of the defined opcodes, and the operand bytes
are not examined. -/
def Obligations.IllegalOpcodeIgnoresOperands : Prop :=
  ∀ s : State, Ready s →
    ((∀ m : Mnemonic, m.present s.params = true → s.params.opcodes.byte m ≠ s.window.ir) ↔
      fetchDecode s = .error (.illegalOpcode s.window.ir)) ∧
    (fetchDecode s = .error (.illegalOpcode s.window.ir) →
      step s = .next (raise (.illegalOpcode s.window.ir) s) ∧
      ∀ opa opb : Byte, decode s.params ⟨s.window.ir, opa, opb⟩ = .error (.illegalOpcode s.window.ir))

/-- After the opcode has matched, an operand byte that the format declares a register index and that is above 7 raises, operand
a first, whether or not the instruction would use the register. 50_execution_engine.md section 1 (R104); 60_exceptions.md
section 1 (R123). Rests on D12, D15 (entries 10, 13). -/
def Obligations.RegisterIndexAboveSevenFaults : Prop :=
  ∀ (s : State) (m : Mnemonic), Ready s → opcodeRow s.params s.window.ir = some m →
    (m.format ≠ .z → 7 < s.window.opa.toNat →
      fetchDecode s = .error (.registerIndexOutOfRange s.window.opa) ∧
      step s = .next (raise (.registerIndexOutOfRange s.window.opa) s)) ∧
    (m.format = .rr → s.window.opa.toNat ≤ 7 → 7 < s.window.opb.toNat →
      fetchDecode s = .error (.registerIndexOutOfRange s.window.opb) ∧
      step s = .next (raise (.registerIndexOutOfRange s.window.opb) s)) ∧
    ((m.format = .z ∨ s.window.opa.toNat ≤ 7) → (m.format ≠ .rr ∨ s.window.opb.toNat ≤ 7) →
      ∃ i : Instr, i.mnemonic = m ∧ fetchDecode s = .ok i)

/-- Raising a fault clears `run`, writes the cause's code and changes nothing else, `pc` included; so does a step whose fetch or
decode raises. 60_exceptions.md sections 1 and 2 (R120, R126). The codes rest on D9, the kept `pc` on D11 (entries 8, 10). -/
def Obligations.FaultEntryWritesRunAndErr : Prop :=
  ∀ (s : State) (c : Cause), s.run = true → fetchDecode s = .error c →
    ∃ t : State, step s = .next t ∧ t.run = false ∧
      t.err = (match c with
        | .divideByZero _ => 1
        | .illegalOpcode _ => 2
        | .registerIndexOutOfRange _ => 3
        | .addressOutOfRange _ => 4) ∧
      (∀ r : Reg, t.reg r = s.reg r) ∧ t.pc = s.pc ∧ t.fl = s.fl ∧ SameMemory s t ∧ t.out = s.out ∧ t.params = s.params

/-- A step that writes `err` writes only `run` and `err`, and a code from 1 to 4: every fault is precise, the one raised in
execute too. 50_execution_engine.md section 1 (R107); 60_exceptions.md section 2 (R128). Rests on D9, D10, D11 (entries 8,
10). -/
def Obligations.FaultsArePrecise : Prop :=
  ∀ s t : State, step s = .next t → t.err ≠ s.err →
    s.run = true ∧ t = { s with run := false, err := t.err } ∧ 1 ≤ t.err.toNat ∧ t.err.toNat ≤ 4

/-! ## Whole-machine rules -/

/-- 10_state.md R18: `run` is true from construction and after every reset; a step clears it exactly when it runs HLT or raises
a fault (in fetch, in decode, or for a zero divisor); a step never sets it; a stopped machine does nothing; and no instruction
reads it. -/
def Obligations.RunBitIsClearedByHltOrFault : Prop :=
  State.reset.run = true ∧ (∀ (s : State) (loads : List (Byte × Byte)), (s.resetPulse loads).run = true) ∧
  (∀ s t : State, step s = .next t →
    (s.run = false → t = s) ∧
    (s.run = true → (t.run = false ↔
      fetchDecode s = .ok .hlt ∨ (∃ c : Cause, fetchDecode s = .error c ∧ t = raise c s) ∨
      (∃ a b : Reg, (fetchDecode s = .ok (.mod a b) ∨ fetchDecode s = .ok (.div a b)) ∧ s.reg b = 0 ∧
        t = raise (.divideByZero s.pc) s)))) ∧
  (∀ (i : Instr) (s : State) (b : Bool), ∃ t u : State, exec i s = .next t ∧ exec i { s with run := b } = .next u ∧
    u = { t with run := u.run })

/-- CMP is the only instruction that writes the flags, and it leaves exactly one of them set; no other step, no fault and no
HLT changes them. 10_state.md section 3 (R17). Rests on the bit positions D2 (entry 6). -/
def Obligations.OnlyCmpWritesFlags : Prop :=
  ∀ s t : State, step s = .next t →
    t.fl = s.fl ∨
    (s.run = true ∧ (∃ a b : Reg, fetchDecode s = .ok (.cmp a b)) ∧ (t.fl = 0b001 ∨ t.fl = 0b010 ∨ t.fl = 0b100))

/-- Only JEQ and JNE read the flags, and they read only Equal: with other flags that agree on `fl.E`, or for any other
instruction with any flags, everything but `fl` comes out the same. 10_state.md section 3 (R17). Rests on D2 (entry 6). -/
def Obligations.OnlyEqualIsReadAndOnlyByJumps : Prop :=
  ∀ (i : Instr) (s : State) (f : BitVec 3),
    (f.getLsbD 0 = s.fl.getLsbD 0 ∨ ∀ a : Reg, i ≠ .jeq a ∧ i ≠ .jne a) →
    ∃ t u : State, exec i s = .next t ∧ exec i { s with fl := f } = .next u ∧ u = { t with fl := u.fl }

/-- During a run only PUSH and CALL write memory, and they write one cell, the one below the stack pointer; POP and RET write
none. 10_state.md section 5 (R20); 50_execution_engine.md section 2 (R111); 90_conflicts.md C8. That the pointer wraps
silently from 0 to 255 rests on D13 (entry 11). -/
def Obligations.OnlyPushAndCallWriteMemory : Prop :=
  ∀ s t : State, step s = .next t →
    SameMemory s t ∨
    (s.run = true ∧ (∃ a : Reg, fetchDecode s = .ok (.push a) ∨ fetchDecode s = .ok (.call a)) ∧
      SameMemoryBut (s.sp - 1).toNat s t)

/-- 10_state.md R21: PRN appends the register's value at the end of `out`, every other step leaves `out` alone; nothing reads
`out`; reset empties it. -/
def Obligations.OnlyPrnAppendsToOut : Prop :=
  (∀ s t : State, step s = .next t →
    (∀ a : Reg, s.run = true → fetchDecode s = .ok (.prn a) → t.out = s.out ++ [s.reg a]) ∧
    ((s.run = false ∨ ∀ a : Reg, fetchDecode s ≠ .ok (.prn a)) → t.out = s.out)) ∧
  (∀ (s t : State) (o : List Byte), step s = .next t →
    ∃ u : State, step { s with out := o } = .next u ∧ u = { t with out := u.out } ∧
      prnEvents { s with out := o } u = prnEvents s t) ∧
  (∀ (s : State) (loads : List (Byte × Byte)), (s.resetPulse loads).out = [])

/-- No step changes `HAS_DIV` or `OPCODE_MAP`: the decoder's mapping is fixed. 50_execution_engine.md section 1 (R103). The
field is the model's own (entry 2). -/
def Obligations.ParametersNeverChange : Prop :=
  ∀ s t : State, step s = .next t → t.params = s.params

/-- A byte that PUSH or CALL stores is what the very next fetch sees, and every other byte of that window is as before.
20_memory.md section 5 (R40); 70_reset_and_hazards.md section 3 (R146). Rests on D19 (entry 17); the byte stored by PUSH of
register 7 rests on D14 (entry 12), the silent wrap of the pointer on D13 (entry 11). -/
def Obligations.StoredByteIsSeenByTheNextFetch : Prop :=
  ∀ (s t : State) (a : Reg), Ready s → (fetchDecode s = .ok (.push a) ∨ fetchDecode s = .ok (.call a)) →
    step s = .next t → t.pc.toNat ≤ 253 →
      fetch t = .ok ⟨t.mem.read t.pc.toNat, t.mem.read (t.pc.toNat + 1), t.mem.read (t.pc.toNat + 2)⟩ ∧
      (∀ addr : Nat, t.mem.read addr =
        if addr = (s.sp - 1).toNat then
          (if fetchDecode s = .ok (.call a) then returnAddress s else if a = 7 then s.sp - 1 else s.reg a)
        else s.mem.read addr)

/-! ## Invariants -/

/-- Every step from a state that meets the invariant gives a state that meets it: `pc` at most 256, a legal flag value, a
recorded cause only on a stopped machine, a code at most 4, canonical memory. 10_state.md section 9 (R25). R25 is the spec's
own inference; the bound 256 rests on D5 (entry 7), the codes on D9 (entry 8). -/
def Obligations.StepKeepsInvariant : Prop :=
  ∀ s t : State, s.Inv → step s = .next t → t.Inv

/-- The reset state meets the invariant, and so does the launch state of every image with every parameters, and every reset
pulse of a state with canonical memory. 10_state.md sections 8 and 9. -/
def Obligations.ResetAndLaunchMeetInvariant : Prop :=
  State.reset.Inv ∧ (∀ (p : Params) (image : Image), (launch p image).Inv) ∧
  (∀ (s : State) (loads : List (Byte × Byte)), s.mem.wf = true → (s.resetPulse loads).Inv)

/-- In every state of every run of every program: the invariants of 10_state.md R25, and a stopped state is the last. R25 is
the spec's own inference ("derived: from rules R12, R14, R17, R18, R19 and 60_exceptions.md rule R126"). The bound 256 on `pc`
rests on D5 (entry 7), the codes on D9 (entry 8), the stopped step on D21 (entry 10). -/
def Obligations.EveryReachableStateIsLegal : Prop :=
  ∀ (p : Params) (image : Image) (k : Nat) (t : State), Host.Core.run Sys2Proof.core k (launch p image) = .next t →
    t.Inv ∧ t.params = p ∧ (t.run = false → ∀ j : Nat, Host.Core.run Sys2Proof.core j t = .next t)

/-! ## Memory -/

/-- 20_memory.md R31: `MemRead` gives the cell's value at addresses 0 to 255 and raises `AddressOutOfRange` with the address,
not reduced, above. -/
def Obligations.MemReadIsBoundsChecked : Prop :=
  ∀ (s : State) (addr : Nat),
    (addr ≤ 255 → memRead s addr = .ok (s.mem.read addr)) ∧
    (255 < addr → memRead s addr = .error (.addressOutOfRange addr))

/-- 20_memory.md R32: `MemWrite` in range writes one cell and nothing else; out of range it raises `AddressOutOfRange` and
writes no cell. A stack address is always in range. -/
def Obligations.MemWriteChangesOneCell : Prop :=
  ∀ (s : State) (addr : Nat) (v : Byte),
    (addr ≤ 255 → ∃ t : State, memWrite s addr v = .ok t ∧ t.mem.read addr = v ∧ SameMemoryBut addr s t ∧
      (∀ r : Reg, t.reg r = s.reg r) ∧ t.pc = s.pc ∧ t.fl = s.fl ∧ t.run = s.run ∧ t.err = s.err ∧ t.out = s.out ∧
      t.params = s.params) ∧
    (255 < addr → memWrite s addr v = .error (.addressOutOfRange addr) ∧
      SameMemory s (raise (.addressOutOfRange addr) s)) ∧
    (∀ b : Byte, ∃ t : State, memWrite s b.toNat v = .ok t)

/-- Canonical memories that read alike are equal data, a write keeps the canonical form, and writing the value a cell already
holds changes nothing (20_memory.md section 3, R36). The list form is the model's own. -/
def Obligations.CanonicalMemoryIsUnique : Prop :=
  (∀ m n : Memory, m.wf = true → n.wf = true → (∀ addr : Nat, addr < 256 → m.read addr = n.read addr) → m = n) ∧
  (∀ (m : Memory) (addr : Nat) (v : Byte), m.wf = true → addr < 256 →
    (m.write addr v).wf = true ∧ m.write addr (m.read addr) = m)

/-! ## Reset and launch -/

/-- What reset leaves: 10_state.md section 8 (R24). The zeros of `x[0]` to `x[6]`, `fl` and `err` rest on D6, D7, D9
(entries 5, 8), the zero of every memory cell on entry 4. -/
def Obligations.ResetValues : Prop :=
  State.reset.reg 7 = 0xF4 ∧ State.reset.sp = 244 ∧ State.reset.pc = 0 ∧ State.reset.run = true ∧
  (∀ r : Reg, r ≠ 7 → State.reset.reg r = 0) ∧ State.reset.fl = 0b000 ∧ State.reset.err = 0 ∧ State.reset.out = [] ∧
  (∀ addr : Nat, State.reset.mem.read addr = 0)

/-- The launch state: the reset values, and every cell the image's byte. 70_reset_and_hazards.md section 1 (R141). Rests on
D8 (entry 4). -/
def Obligations.LaunchMemoryIsTheImage : Prop :=
  ∀ (p : Params) (image : Image),
    (∀ n : Fin 256, (launch p image).mem.read n.val = image[n]) ∧
    launch p image = { State.reset with mem := (launch p image).mem, params := p }

/-- A warm reset without loads keeps memory and equals the launch of the memory of that moment; a load writes its cell.
70_reset_and_hazards.md section 1 (R140, R144). Rests on D22 (entry 15). -/
def Obligations.WarmResetIsALaunchOfTheSameMemory : Prop :=
  (∀ (s : State) (image : Image), s.mem.wf = true → (∀ n : Fin 256, image[n] = s.mem.read n.val) →
    s.resetPulse [] = launch s.params image) ∧
  (∀ (s : State) (loads : List (Byte × Byte)) (addr data : Byte),
    (s.resetPulse (loads ++ [(addr, data)])).mem.read addr.toNat = data ∧
    SameMemoryBut addr.toNat (s.resetPulse loads) (s.resetPulse (loads ++ [(addr, data)])))

/-- The loader's image: an empty or too long program is refused, else the program from address 0 and zeros after it.
70_reset_and_hazards.md sections 1 and 2 (R141, R142). Rests on D8, D27 (entries 4, 15). -/
def Obligations.ProgramImageIsZeroFilled : Prop :=
  ∀ bytes : List Byte,
    (imageOfProgram bytes = none ↔ (bytes = [] ∨ 256 < bytes.length)) ∧
    (∀ image : Image, imageOfProgram bytes = some image → ∀ n : Fin 256,
      image[n] = if h : n.val < bytes.length then bytes[n.val] else 0x00)

/-- The debug view reads the state and shows bytes above 255 as absent. 60_exceptions.md section 5 (R136). Rests on D25
(entry 19). -/
def Obligations.DebugViewShowsTheState : Prop :=
  ∀ s : State, s.debugView.pc = s.pc ∧ s.debugView.fl = s.fl ∧ (∀ r : Reg, s.debugView.x[r] = s.reg r) ∧
    (∀ n : Fin 3, s.debugView.window[n.val]? =
      some (if s.pc.toNat + n.val ≤ 255 then some (s.mem.read (s.pc.toNat + n.val)) else none))

/-! ## HLT, LDI, PRN -/

/-- HLT clears `run` and leaves everything else, `pc` and `err` among it. 40_basic.md R60; the kept `pc` rests on D11
(entry 10). The opcode byte rests on D1 (entry 1). -/
def Obligations.HltStopsCleanly : Prop :=
  encode Params.standard .hlt = [0x01] ∧
  (∀ s : State, ∃ t : State, exec .hlt s = .next t ∧ t.run = false ∧ t.pc = s.pc ∧ t.err = s.err ∧ t.fl = s.fl ∧
    t.out = s.out ∧ t.params = s.params ∧ (∀ r : Reg, t.reg r = s.reg r) ∧ SameMemory s t) ∧
  (∀ s : State, Ready s → StandardMap s → s.window.ir = 0x01 → s.err = 0 → ∃ t : State, step s = .next t ∧ t.cleanHalt)

/-- LDI (40_basic.md R61): `x[a] <- imm`, `pc <- pc + 3`, the index checked, the literal not; from `pc` 253 it leaves 256 and
the next step faults. The opcode byte rests on D1 (entry 1), the operand check on D15 (entry 13). That it leaves 256, and does
not wrap, rests on D5 (entry 7). -/
def Obligations.LdiLoadsItsLiteral : Prop :=
  (∀ (a : Reg) (imm : Byte), encode Params.standard (.ldi a imm) = [0x82, BitVec.ofNat 8 a.val, imm]) ∧
  (∀ s : State, Ready s → StandardMap s → s.window.ir = 0x82 →
    (7 < s.window.opa.toNat → step s = .next (raise (.registerIndexOutOfRange s.window.opa) s)) ∧
    (∀ a : Reg, s.window.opa.toNat = a.val → step s = exec (.ldi a s.window.opb) s)) ∧
  (∀ (a : Reg) (imm : Byte) (s : State), ∃ t : State, exec (.ldi a imm) s = .next t ∧ t.reg a = imm ∧
    t.pc = s.pc + 3 ∧ Frame [a] s t ∧ SameMemory s t ∧ (a = 7 → t.sp = imm) ∧
    (s.pc = 253 → s.run = true → t.pc.toNat = 256 ∧ step t = .next (raise (.addressOutOfRange 256) t)))

/-- PRN emits `x[a]` once and changes no register, flag or memory cell. 40_basic.md R62; that the hardware emits the byte and
not text rests on D20 (entry 18). The opcode byte rests on D1 (entry 1), the operand check on D15 (entry 13). -/
def Obligations.PrnEmitsTheRegister : Prop :=
  EncodesR .prn 0x47 ∧ ChecksOperandR .prn 0x47 ∧
  ∀ (a : Reg) (s : State), ∃ t : State, exec (.prn a) s = .next t ∧ t.out = s.out ++ [s.reg a] ∧
    prnEvents s t = [s.reg a] ∧ t.pc = s.pc + 2 ∧ (∀ r : Reg, t.reg r = s.reg r) ∧ t.fl = s.fl ∧ t.run = s.run ∧
    t.err = s.err ∧ t.params = s.params ∧ SameMemory s t

/-! ## ALU -/

/-- ADD, SUB, MUL (41_alu.md R66, R67, R68): `(x[a] + x[b]) mod 256`, `(x[a] - x[b]) mod 256`, `(x[a] * x[b]) mod 256`. The
opcode bytes rest on D1 (entry 1), the operand check on D15 (entry 13). -/
def Obligations.AddSubMulWrapModulo256 : Prop :=
  AluRule .add 0xA0 (fun va vb v => v = (va + vb) % 256) ∧
  AluRule .sub 0xA1 (fun va vb v => (v : Int) = ((va : Int) - (vb : Int)) % 256) ∧
  AluRule .mul 0xA2 (fun va vb v => v = (va * vb) % 256)

/-- AND, OR (41_alu.md R72, R73): bit i of the result is the and, the or, of the operands' bits i. The opcode bytes rest on D1
(entry 1), the operand check on D15 (entry 13). -/
def Obligations.AndOrAreBitwise : Prop :=
  AluRule .and 0xA8 (fun va vb v => ∀ n : Nat, v.testBit n = (va.testBit n && vb.testBit n)) ∧
  AluRule .or 0xAA (fun va vb v => ∀ n : Nat, v.testBit n = (va.testBit n || vb.testBit n))

/-- XOR: bit i of the result is 1 exactly when the operands' bits i differ. 41_alu.md section 4. That XOR is an instruction
rests on the spec's decision D4 (entry 9). The opcode byte rests on D1 (entry 1), the operand check on D15 (entry 13). -/
def Obligations.XorIsBitwise : Prop :=
  AluRule .xor 0xAB (fun va vb v => ∀ n : Nat, v.testBit n = (va.testBit n != vb.testBit n))

/-- NOT (41_alu.md R75): `255 - x[a]`, `pc + 2`, only the byte at `pc+1` checked. The opcode byte rests on D1 (entry 1), the
operand check on D15 (entry 13). -/
def Obligations.NotComplementsEightBits : Prop :=
  EncodesR .not 0x69 ∧ ChecksOperandR .not 0x69 ∧
  ∀ (a : Reg) (s : State), ∃ t : State, exec (.not a) s = .next t ∧ (t.reg a).toNat = 255 - (s.reg a).toNat ∧
    t.pc = s.pc + 2 ∧ Frame [a] s t ∧ SameMemory s t

/-- SHL: `(x[a] * 2^x[b]) mod 256`, and 0 for every count of 8 or more. 41_alu.md section 5. That the count is not reduced
rests on the spec's own inference ("derived: from the source's formula; see 92_eei_decisions.md D28"; entry 16). The opcode
byte rests on D1 (entry 1), the operand check on D15 (entry 13). -/
def Obligations.ShlShiftsLeft : Prop :=
  AluRule .shl 0xAC (fun va vb v => v = (va * 2 ^ vb) % 256 ∧ (8 ≤ vb → v = 0))

/-- SHR (41_alu.md R77): `floor(x[a] / 2^x[b])`, zeros enter at bit 7, 0 for every count of 8 or more. The opcode byte rests
on D1 (entry 1), the operand check on D15 (entry 13). That the count is not reduced, and the result at counts of 8 and above,
rest on D28 (entry 16). -/
def Obligations.ShrShiftsRightLogically : Prop :=
  AluRule .shr 0xAD (fun va vb v => v = va / 2 ^ vb ∧ (8 ≤ vb → v = 0) ∧ (1 ≤ vb → v < 128))

/-- Each of the eight results is one function of the two operand values before the step, for all index pairs, `a = b` and
index 7 among them, and nothing else of the state enters it; the function is the modular or bitwise formula of the
instruction's rule. 41_alu.md section 6 (R80). That the formulas of SHL and SHR go on at counts of 8 and above rests on D28
(entry 16); that XOR is an instruction rests on D4 (entry 9). -/
def Obligations.AluResultsDependOnOperandsOnly : Prop :=
  ∀ q ∈ ([(Instr.add, fun va vb v => v = (va + vb) % 256),
      (Instr.sub, fun va vb v => (v : Int) = ((va : Int) - (vb : Int)) % 256),
      (Instr.mul, fun va vb v => v = (va * vb) % 256),
      (Instr.and, fun va vb v => v = va &&& vb),
      (Instr.or, fun va vb v => v = va ||| vb),
      (Instr.xor, fun va vb v => v = va ^^^ vb),
      (Instr.shl, fun va vb v => v = (va * 2 ^ vb) % 256),
      (Instr.shr, fun va vb v => v = va / 2 ^ vb)] : List ((Reg → Reg → Instr) × (Nat → Nat → Nat → Prop))),
    ∃ f : Byte → Byte → Byte, (∀ va vb : Byte, q.2 va.toNat vb.toNat (f va vb).toNat) ∧
      ∀ (a b : Reg) (s : State), ∃ t : State, exec (q.1 a b) s = .next t ∧ t.reg a = f (s.reg a) (s.reg b)

/-- CMP sets exactly Equal, Less or Greater by the unsigned comparison, clears the other two and writes no register. 41_alu.md
section 3. Rests on the bit positions D2 (entry 6). The opcode byte rests on D1 (entry 1), the operand check on D15 (entry
13). -/
def Obligations.CmpSetsExactlyOneFlag : Prop :=
  EncodesRR .cmp 0xA7 ∧ ChecksOperandsRR .cmp 0xA7 ∧
  ∀ (a b : Reg) (s : State), ∃ t : State, exec (.cmp a b) s = .next t ∧
    (t.flagE = true ↔ (s.reg a).toNat = (s.reg b).toNat) ∧
    (t.flagL = true ↔ (s.reg a).toNat < (s.reg b).toNat) ∧
    (t.flagG = true ↔ (s.reg b).toNat < (s.reg a).toNat) ∧
    t.pc = s.pc + 3 ∧ (∀ r : Reg, t.reg r = s.reg r) ∧ t.run = s.run ∧ t.err = s.err ∧ t.out = s.out ∧
    t.params = s.params ∧ SameMemory s t

/-- MOD completes with the unsigned remainder for every divisor but 0. 41_alu.md section 2. The opcode byte rests on D1 (entry
1), the operand check on D15 (entry 13). -/
def Obligations.ModGivesTheRemainder : Prop :=
  EncodesRR .mod 0xA4 ∧ ChecksOperandsRR .mod 0xA4 ∧
  ∀ (a b : Reg) (s : State), s.reg b ≠ 0 → ∃ t : State, exec (.mod a b) s = .next t ∧
    (t.reg a).toNat = (s.reg a).toNat - (s.reg b).toNat * ((s.reg a).toNat / (s.reg b).toNat) ∧
    (t.reg a).toNat < (s.reg b).toNat ∧ t.pc = s.pc + 3 ∧ Frame [a] s t ∧ SameMemory s t

/-- DIV, on a machine with `HAS_DIV`, completes with the unsigned quotient for every divisor but 0, and quotient and remainder
fit together. 41_alu.md section 2. DIV rests on the spec's decision D3 (entry 2). The opcode byte rests on D1 (entry 1), the
operand check on D15 (entry 13). -/
def Obligations.DivGivesTheQuotient : Prop :=
  (∀ a b : Reg, encode Params.table (.div a b) = [0xA3, BitVec.ofNat 8 a.val, BitVec.ofNat 8 b.val]) ∧
  (∀ s : State, Ready s → StandardMap s → s.window.ir = 0xA3 →
    (s.params.hasDiv = false → step s = .next (raise (.illegalOpcode 0xA3) s)) ∧
    (s.params.hasDiv = true → 7 < s.window.opa.toNat →
      step s = .next (raise (.registerIndexOutOfRange s.window.opa) s)) ∧
    (s.params.hasDiv = true → s.window.opa.toNat ≤ 7 → 7 < s.window.opb.toNat →
      step s = .next (raise (.registerIndexOutOfRange s.window.opb) s)) ∧
    (s.params.hasDiv = true → ∀ a b : Reg, s.window.opa.toNat = a.val → s.window.opb.toNat = b.val →
      step s = exec (.div a b) s)) ∧
  (∀ (a b : Reg) (s : State), s.reg b ≠ 0 → ∃ t u : State, exec (.div a b) s = .next t ∧ exec (.mod a b) s = .next u ∧
    (t.reg a).toNat = (s.reg a).toNat / (s.reg b).toNat ∧
    (s.reg a).toNat = (t.reg a).toNat * (s.reg b).toNat + (u.reg a).toNat ∧
    t.pc = s.pc + 3 ∧ Frame [a] s t ∧ SameMemory s t)

/-- MOD and DIV with a zero divisor: `run` cleared, code 1, the dividend, `pc` and everything else as before. 41_alu.md
section 2; 60_exceptions.md section 1. The code rests on D9, the kept `pc` on D11, DIV on D3 (entries 8, 10, 2). -/
def Obligations.ZeroDivisorStopsTheMachine : Prop :=
  ∀ (a b : Reg) (s : State), s.reg b = 0 →
    exec (.mod a b) s = .next { s with run := false, err := 1 } ∧
    exec (.div a b) s = .next { s with run := false, err := 1 }

/-! ## Stack -/

/-- PUSH: the pointer goes down by one modulo 256, the cell it then names gets `x[a]`, read after the decrement. 42_stack.md
R86; the order rests on D14, the silent wrap on D13 (entries 12, 11). The opcode byte rests on D1 (entry 1), the operand check
on D15 (entry 13). -/
def Obligations.PushStoresBelowTheTop : Prop :=
  EncodesR .push 0x45 ∧ ChecksOperandR .push 0x45 ∧
  ∀ (a : Reg) (s : State), ∃ t : State, exec (.push a) s = .next t ∧
    t.sp = s.sp - 1 ∧ t.sp.toNat = (s.sp.toNat + 255) % 256 ∧
    t.mem.read (s.sp - 1).toNat = (if a = 7 then s.sp - 1 else s.reg a) ∧
    SameMemoryBut (s.sp - 1).toNat s t ∧ t.pc = s.pc + 2 ∧ Frame [7] s t

/-- POP: `x[a]` gets the byte at the pointer, then the pointer goes up by one modulo 256 (for `a = 7`, the loaded value does);
memory is not modified. 42_stack.md R87; the order rests on D14, the silent wrap on D13 (entries 12, 11). The opcode byte
rests on D1 (entry 1), the operand check on D15 (entry 13). -/
def Obligations.PopLoadsTheTop : Prop :=
  EncodesR .pop 0x46 ∧ ChecksOperandR .pop 0x46 ∧
  ∀ (a : Reg) (s : State), ∃ t : State, exec (.pop a) s = .next t ∧
    (a ≠ 7 → t.reg a = s.mem.read s.sp.toNat ∧ t.sp.toNat = (s.sp.toNat + 1) % 256) ∧
    (a = 7 → t.sp.toNat = ((s.mem.read s.sp.toNat).toNat + 1) % 256) ∧
    t.pc = s.pc + 2 ∧ Frame [a, 7] s t ∧ SameMemory s t

/-- The stack property: POP brings back what PUSH of the same register stored and restores the pointer, after anything that
left the pointer and the pushed cell alone; for register 7, right after the push. 42_stack.md R88, whose case `a = 7` is the
spec's own inference ("derived: from rule R86 and rule R87"). Register 7 rests on D14 (entry 12), the silent wrap on D13
(entry 11). -/
def Obligations.PushThenPopRestores : Prop :=
  ∀ (a : Reg) (s : State), ∃ t : State, exec (.push a) s = .next t ∧
    (a ≠ 7 → ∀ t' : State, t'.sp = t.sp → t'.mem.read t.sp.toNat = t.mem.read t.sp.toNat →
      ∃ u : State, exec (.pop a) t' = .next u ∧ u.reg a = s.reg a ∧ u.sp = s.sp) ∧
    (∃ u : State, exec (.pop a) t = .next u ∧ u.reg a = s.reg a ∧ u.sp = s.sp)

/-! ## Control transfer -/

/-- CALL: pushes the address of the next instruction, whole, and jumps to `x[a]`, read after the push. 43_control_transfer.md
R91; that the address fits rests on the spec's own inference ("derived: from 50_execution_engine.md rule R102"), the order on
D14 (entry 12), the silent wrap of the pointer on D13 (entry 11). The opcode byte rests on D1 (entry 1), the operand check on
D15 (entry 13). -/
def Obligations.CallPushesTheNextAddress : Prop :=
  EncodesR .call 0x50 ∧ ChecksOperandR .call 0x50 ∧
  ∀ (a : Reg) (s : State), ∃ t : State, exec (.call a) s = .next t ∧
    t.sp = s.sp - 1 ∧ t.mem.read (s.sp - 1).toNat = BitVec.ofNat 8 (s.pc.toNat + 2) ∧
    (s.pc.toNat ≤ 253 → (t.mem.read (s.sp - 1).toNat).toNat = s.pc.toNat + 2) ∧
    SameMemoryBut (s.sp - 1).toNat s t ∧
    t.pc.toNat = (if a = 7 then s.sp - 1 else s.reg a).toNat ∧ Frame [7] s t

/-- RET (43_control_transfer.md R92): `pc` gets the byte at the pointer, zero-extended, and the pointer goes up by one modulo
256; nothing is checked and memory is not modified. The opcode byte rests on D1 (entry 1). The silent wrap rests on D13 (entry
11). -/
def Obligations.RetJumpsToTheTopOfStack : Prop :=
  encode Params.standard .ret = [0x11] ∧
  (∀ s : State, Ready s → StandardMap s → s.window.ir = 0x11 → step s = exec .ret s) ∧
  (∀ s : State, ∃ t : State, exec .ret s = .next t ∧ t.pc.toNat = (s.mem.read s.sp.toNat).toNat ∧
    t.sp.toNat = (s.sp.toNat + 1) % 256 ∧ Frame [7] s t ∧ SameMemory s t)

/-- JMP (43_control_transfer.md R93): `pc <- zext_9(x[a])`; no register and no memory cell changes; a jump to its own address
is an endless loop that nothing detects. The opcode byte rests on D1 (entry 1), the operand check on D15 (entry 13). -/
def Obligations.JmpJumpsToTheRegister : Prop :=
  EncodesR .jmp 0x54 ∧ ChecksOperandR .jmp 0x54 ∧
  ∀ (a : Reg) (s : State), ∃ t : State, exec (.jmp a) s = .next t ∧ t.pc.toNat = (s.reg a).toNat ∧
    Frame [] s t ∧ SameMemory s t ∧ ((s.reg a).toNat = s.pc.toNat → t = s)

/-- JEQ and JNE: complementary on `fl.E`, to `zext_9(x[a])` or to the next instruction; flags, registers and memory as before.
43_control_transfer.md R94, R95. Their behaviour before any CMP rests on D7 (entry 5). The opcode bytes rest on D1 (entry 1),
the operand check on D15 (entry 13). -/
def Obligations.ConditionalJumpsTestEqual : Prop :=
  EncodesR .jeq 0x55 ∧ ChecksOperandR .jeq 0x55 ∧ EncodesR .jne 0x56 ∧ ChecksOperandR .jne 0x56 ∧
  ∀ (a : Reg) (s : State), ∃ t u : State, exec (.jeq a) s = .next t ∧ exec (.jne a) s = .next u ∧
    (s.flagE = true → t.pc.toNat = (s.reg a).toNat ∧ u.pc = s.pc + 2) ∧
    (s.flagE = false → t.pc = s.pc + 2 ∧ u.pc.toNat = (s.reg a).toNat) ∧
    Frame [] s t ∧ SameMemory s t ∧ Frame [] s u ∧ SameMemory s u

/-- CMP followed by JEQ jumps exactly when the compared registers were equal, by JNE exactly when they were not.
43_control_transfer.md R94, R95 (source §8). -/
def Obligations.CompareThenJump : Prop :=
  ∀ (a b r : Reg) (s : State), ∃ t : State, exec (.cmp a b) s = .next t ∧
    (∃ u : State, exec (.jeq r) t = .next u ∧
      (s.reg a = s.reg b → u.pc.toNat = (s.reg r).toNat) ∧ (s.reg a ≠ s.reg b → u.pc = s.pc + 5)) ∧
    (∃ u : State, exec (.jne r) t = .next u ∧
      (s.reg a = s.reg b → u.pc = s.pc + 5) ∧ (s.reg a ≠ s.reg b → u.pc.toNat = (s.reg r).toNat))

/-- CALL followed by RET resumes at the instruction right after the CALL with the pointer restored, after any routine that
left the pointer and the pushed cell alone. 43_control_transfer.md R91 (source §8, "PC == call_site + 2"). The silent wrap of
the pointer rests on D13 (entry 11). -/
def Obligations.CallThenRetResumes : Prop :=
  ∀ (a : Reg) (s : State), s.pc.toNat ≤ 253 → ∃ t : State, exec (.call a) s = .next t ∧
    ∀ t' : State, t'.sp = t.sp → t'.mem.read t.sp.toNat = t.mem.read t.sp.toNat →
      ∃ u : State, exec .ret t' = .next u ∧ u.pc.toNat = s.pc.toNat + 2 ∧ u.sp = s.sp
end

