-- ==== Sys2Proof/Laws/Alu.lean ====
section
/-! SUPPORT. What each ALU result is as an integer, one lemma per result function. -/

namespace Sys2Proof.Machine

variable (va vb : Byte)

theorem aluAdd_toNat : (aluAdd va vb).toNat = (va.toNat + vb.toNat) % 256 := by simp [aluAdd]

theorem aluSub_toInt : ((aluSub va vb).toNat : Int) = ((va.toNat : Int) - vb.toNat) % 256 := by
  simp only [aluSub, BitVec.toNat_ofInt]
  omega

theorem aluMul_toNat : (aluMul va vb).toNat = (va.toNat * vb.toNat) % 256 := by simp [aluMul]

/-- The spec's formula is the remainder, and no reduction is left to do. -/
theorem aluMod_toNat : (aluMod va vb).toNat = va.toNat % vb.toNat := by
  have h := Nat.div_add_mod va.toNat vb.toNat
  have hlt := va.isLt
  simp only [aluMod, BitVec.toNat_ofNat]
  omega

theorem aluDiv_toNat : (aluDiv va vb).toNat = va.toNat / vb.toNat := by
  have h := Nat.lt_of_le_of_lt (Nat.div_le_self va.toNat vb.toNat) va.isLt
  simpa [aluDiv] using Nat.mod_eq_of_lt h

theorem aluNot_toNat : (aluNot va).toNat = 255 - va.toNat := by
  simp only [aluNot, BitVec.toNat_ofNat]
  omega

theorem aluShl_toNat : (aluShl va vb).toNat = (va.toNat * 2 ^ vb.toNat) % 256 := by simp [aluShl]

theorem aluShr_toNat : (aluShr va vb).toNat = va.toNat / 2 ^ vb.toNat := by
  have h := Nat.lt_of_le_of_lt (Nat.div_le_self va.toNat (2 ^ vb.toNat)) va.isLt
  simpa [aluShr] using Nat.mod_eq_of_lt h

theorem aluAnd_getLsbD (i : Nat) : (aluAnd va vb).getLsbD i = (va.getLsbD i && vb.getLsbD i) := by simp [aluAnd]

theorem aluOr_getLsbD (i : Nat) : (aluOr va vb).getLsbD i = (va.getLsbD i || vb.getLsbD i) := by simp [aluOr]

theorem aluXor_getLsbD (i : Nat) : (aluXor va vb).getLsbD i = (va.getLsbD i ^^ vb.getLsbD i) := by simp [aluXor]

end Sys2Proof.Machine
end

