-- ==== Sys2Proof/Laws/Decode.lean ====
section
/-! SUPPORT. What the decoder and the encoder's parts can do, once each. -/

namespace Sys2Proof

/-! Rows -/

theorem Mnemonic.mem_all (m : Mnemonic) : m ∈ Mnemonic.all := by cases m <;> decide

/-- What a well-formed map says of two rows: equal bytes, equal rows. -/
theorem OpcodeMap.byte_injective {o : OpcodeMap} (h : o.wf = true) {m n : Mnemonic} (e : o.byte m = o.byte n) : m = n := by
  simp only [OpcodeMap.wf, List.all_eq_true, Bool.and_eq_true, Bool.or_eq_true, beq_iff_eq, bne_iff_ne] at h
  exact ((h m m.mem_all).2 n n.mem_all).resolve_right fun hne => hne e

/-- What a well-formed map says of one row: bits 7:6 are the operand count (30_encoding.md R46). -/
theorem OpcodeMap.operandCount_eq {o : OpcodeMap} (h : o.wf = true) (m : Mnemonic) :
    operandCountField (o.byte m) = m.format.operandCount := by
  simp only [OpcodeMap.wf, List.all_eq_true, Bool.and_eq_true, beq_iff_eq] at h
  exact (h m m.mem_all).1

/-- The spec's own table gives each byte to at most one row and has the operand count in bits 7:6 (D1). -/
theorem OpcodeMap.standard_wf : OpcodeMap.standard.wf = true := by decide

/-- What the layout of a map says of one row: its operand count, its ALU bit, its pc bit (30_encoding.md R46). -/
theorem OpcodeMap.fields_eq {o : OpcodeMap} (h : o.hasLayout = true) (m : Mnemonic) :
    operandCountField (o.byte m) = m.format.operandCount ∧ aluField (o.byte m) = m.isAlu ∧
      setsPcField (o.byte m) = m.setsPc := by
  simp only [OpcodeMap.hasLayout, Mnemonic.hasLayout, List.all_eq_true, Bool.and_eq_true, beq_iff_eq] at h
  exact ⟨(h m m.mem_all).1.1.1, (h m m.mem_all).1.1.2, (h m m.mem_all).1.2⟩

/-- What the layout of a map says of two rows: equal `AABC` and equal `DDDD`, equal rows (30_encoding.md R46). -/
theorem OpcodeMap.identifier_injective {o : OpcodeMap} (h : o.hasLayout = true) {m n : Mnemonic}
    (hhi : (o.byte m).toNat / 16 = (o.byte n).toNat / 16)
    (hlo : identifierField (o.byte m) = identifierField (o.byte n)) : m = n := by
  simp only [OpcodeMap.hasLayout, List.all_eq_true, Bool.and_eq_true, Bool.or_eq_true, beq_iff_eq, bne_iff_ne] at h
  exact (((h m m.mem_all).2 n n.mem_all).resolve_right fun hne => hne hlo).resolve_right fun hne => hne hhi

/-- A map with the layout is a map that decoding can use: the layout is the stronger of the two. -/
theorem OpcodeMap.wf_of_hasLayout {o : OpcodeMap} (h : o.hasLayout = true) : o.wf = true := by
  simp only [OpcodeMap.wf, List.all_eq_true, Bool.and_eq_true, Bool.or_eq_true, beq_iff_eq, bne_iff_ne]
  refine fun m _ => ⟨(OpcodeMap.fields_eq h m).1, fun n _ => ?_⟩
  by_cases hmn : m = n
  · exact .inl hmn
  · exact .inr fun e => hmn (OpcodeMap.identifier_injective h (by rw [e]) (by rw [e]))

/-- The spec's own table has the whole layout of R46 (D1; entries 1, 22). -/
theorem OpcodeMap.standard_hasLayout : OpcodeMap.standard.hasLayout = true := by decide

/-- The four fields make up the byte. -/
theorem fields_toNat (ir : Byte) :
    ir.toNat = 64 * operandCountField ir + 32 * (aluField ir).toNat + 16 * (setsPcField ir).toNat + identifierField ir := by
  revert ir; decide

/-- A matched row counts and has the byte. -/
theorem opcodeRow_some {p : Params} {ir : Byte} {m : Mnemonic} (h : opcodeRow p ir = some m) :
    m.present p = true ∧ p.opcodes.byte m = ir := by
  have := List.find?_some h
  simpa using this

/-- No row is matched exactly when every row that counts has another byte. -/
theorem opcodeRow_none {p : Params} {ir : Byte} :
    opcodeRow p ir = none ↔ ∀ m : Mnemonic, m.present p = true → p.opcodes.byte m ≠ ir := by
  simp only [opcodeRow, List.find?_eq_none, Bool.and_eq_true, beq_iff_eq, not_and]
  exact ⟨fun h m => h m m.mem_all, fun h m _ => h m⟩

/-- With a well-formed map, the byte of a row that counts selects that row. -/
theorem opcodeRow_byte {p : Params} (h : p.opcodes.wf = true) {m : Mnemonic} (hm : m.present p = true) :
    opcodeRow p (p.opcodes.byte m) = some m := by
  cases hr : opcodeRow p (p.opcodes.byte m) with
  | none => exact absurd rfl (opcodeRow_none.mp hr m hm)
  | some n => exact congrArg some (OpcodeMap.byte_injective h (opcodeRow_some hr).2)

/-! Register operands -/

/-- The operand check accepts exactly the bytes 0..7, as they stand. -/
theorem regOperand_ok {b : Byte} {r : Reg} : regOperand b = .ok r ↔ b.toNat = r.val := by
  unfold regOperand
  split
  · rename_i h
    simp only [Except.ok.injEq, Fin.ext_iff]
  · rename_i h
    simp only [reduceCtorEq, false_iff]
    omega

/-- The operand check refuses exactly the bytes above 7, and reports the byte. -/
theorem regOperand_error {b : Byte} {c : Cause} :
    regOperand b = .error c ↔ 7 < b.toNat ∧ c = .registerIndexOutOfRange b := by
  unfold regOperand
  split
  · rename_i h
    simp only [reduceCtorEq, false_iff, not_and]
    omega
  · rename_i h
    simp only [Except.error.injEq]
    exact ⟨fun e => ⟨by omega, e.symm⟩, fun e => e.2.symm⟩

theorem regByte_toNat (r : Reg) : (regByte r).toNat = r.val := by
  have := r.isLt
  simp only [regByte, BitVec.toNat_ofNat]
  omega

@[simp] theorem regOperand_regByte (r : Reg) : regOperand (regByte r) = .ok r :=
  regOperand_ok.mpr (regByte_toNat r)

/-- The only byte that names a register is its `regByte`. -/
theorem eq_regByte_of_regOperand {b : Byte} {r : Reg} (h : regOperand b = .ok r) : b = regByte r :=
  BitVec.eq_of_toNat_eq (by rw [regOperand_ok.mp h, regByte_toNat])

/-! The formats -/

@[simp] theorem decodeR_regByte (mk : Reg → Instr) (ir opb : Byte) (a : Reg) :
    decodeR mk ⟨ir, regByte a, opb⟩ = .ok (mk a) := by simp [decodeR]

@[simp] theorem decodeRI_regByte (mk : Reg → Byte → Instr) (ir opb : Byte) (a : Reg) :
    decodeRI mk ⟨ir, regByte a, opb⟩ = .ok (mk a opb) := by simp [decodeRI]

@[simp] theorem decodeRR_regByte (mk : Reg → Reg → Instr) (ir : Byte) (a b : Reg) :
    decodeRR mk ⟨ir, regByte a, regByte b⟩ = .ok (mk a b) := by simp [decodeRR]

/-- What format R answers. -/
theorem decodeR_ok {mk : Reg → Instr} {w : Window} {i : Instr} :
    decodeR mk w = .ok i ↔ ∃ a, w.opa = regByte a ∧ i = mk a := by
  constructor
  · intro h
    cases ha : regOperand w.opa with
    | error c => simp [decodeR, ha] at h
    | ok a =>
      simp only [decodeR, ha, Except.ok.injEq] at h
      exact ⟨a, eq_regByte_of_regOperand ha, h.symm⟩
  · rintro ⟨a, ha, rfl⟩
    simp [decodeR, ha]

/-- What format RI answers. -/
theorem decodeRI_ok {mk : Reg → Byte → Instr} {w : Window} {i : Instr} :
    decodeRI mk w = .ok i ↔ ∃ a, w.opa = regByte a ∧ i = mk a w.opb := by
  constructor
  · intro h
    cases ha : regOperand w.opa with
    | error c => simp [decodeRI, ha] at h
    | ok a =>
      simp only [decodeRI, ha, Except.ok.injEq] at h
      exact ⟨a, eq_regByte_of_regOperand ha, h.symm⟩
  · rintro ⟨a, ha, rfl⟩
    simp [decodeRI, ha]

/-- What format RR answers. -/
theorem decodeRR_ok {mk : Reg → Reg → Instr} {w : Window} {i : Instr} :
    decodeRR mk w = .ok i ↔ ∃ a b, w.opa = regByte a ∧ w.opb = regByte b ∧ i = mk a b := by
  constructor
  · intro h
    cases ha : regOperand w.opa with
    | error c => simp [decodeRR, ha] at h
    | ok a =>
      cases hb : regOperand w.opb with
      | error c => simp [decodeRR, ha, hb] at h
      | ok b =>
        simp only [decodeRR, ha, hb, Except.ok.injEq] at h
        exact ⟨a, b, eq_regByte_of_regOperand ha, eq_regByte_of_regOperand hb, h.symm⟩
  · rintro ⟨a, b, ha, hb, rfl⟩
    simp [decodeRR, ha, hb]

/-- An instruction that decodes belongs to the row that was matched. -/
theorem decodeOperands_mnemonic {m : Mnemonic} {w : Window} {i : Instr} (h : m.decodeOperands w = .ok i) :
    i.mnemonic = m := by
  cases m <;> simp only [Mnemonic.decodeOperands, decodeR_ok, decodeRR_ok, decodeRI_ok, Except.ok.injEq] at h
  all_goals first
    | (subst h; rfl)
    | (obtain ⟨a, -, rfl⟩ := h; rfl)
    | (obtain ⟨a, b, -, -, rfl⟩ := h; rfl)

/-- What the decoder answers: an instruction of the matched row, or one of two causes. -/
theorem decode_ok {p : Params} {w : Window} {i : Instr} :
    decode p w = .ok i ↔ ∃ m, opcodeRow p w.ir = some m ∧ m.decodeOperands w = .ok i := by
  unfold decode
  cases h : opcodeRow p w.ir <;> simp

/-- A matched row's decoding is its operand check. -/
theorem decode_row {p : Params} {w : Window} {m : Mnemonic} (h : opcodeRow p w.ir = some m) :
    decode p w = m.decodeOperands w := by
  unfold decode
  rw [h]

/-- Operand a is checked first, in every format that has one. -/
theorem decodeOperands_opa {m : Mnemonic} {w : Window} (hf : m.format ≠ .z) (h : 7 < w.opa.toNat) :
    m.decodeOperands w = .error (.registerIndexOutOfRange w.opa) := by
  have ha := regOperand_error.mpr ⟨h, rfl⟩
  cases m <;> first
    | exact absurd rfl hf
    | simp [Mnemonic.decodeOperands, decodeR, decodeRR, decodeRI, ha]

/-- Operand b is checked in format RR, after operand a. -/
theorem decodeOperands_opb {m : Mnemonic} {w : Window} (hf : m.format = .rr) (ha : w.opa.toNat ≤ 7)
    (hb : 7 < w.opb.toNat) : m.decodeOperands w = .error (.registerIndexOutOfRange w.opb) := by
  have hb' := regOperand_error.mpr ⟨hb, rfl⟩
  have ha' : regOperand w.opa = .ok ⟨w.opa.toNat, by omega⟩ := regOperand_ok.mpr rfl
  cases m <;> first
    | exact absurd hf (by decide)
    | simp [Mnemonic.decodeOperands, decodeRR, ha', hb']

/-- Operands that pass their checks decode. -/
theorem decodeOperands_inRange {m : Mnemonic} {w : Window} (ha : m.format = .z ∨ w.opa.toNat ≤ 7)
    (hb : m.format ≠ .rr ∨ w.opb.toNat ≤ 7) : ∃ i, m.decodeOperands w = .ok i := by
  by_cases h : w.opa.toNat ≤ 7
  · have ha' : regOperand w.opa = .ok ⟨w.opa.toNat, by omega⟩ := regOperand_ok.mpr rfl
    by_cases h' : w.opb.toNat ≤ 7
    · have hb' : regOperand w.opb = .ok ⟨w.opb.toNat, by omega⟩ := regOperand_ok.mpr rfl
      cases m <;> simp [Mnemonic.decodeOperands, decodeR, decodeRR, decodeRI, ha', hb']
    · have hf := hb.resolve_right h'
      cases m <;> first
        | exact absurd rfl hf
        | simp [Mnemonic.decodeOperands, decodeR, decodeRI, ha']
  · have hf := ha.resolve_right h
    cases m <;> first
      | exact absurd hf (by decide)
      | simp [Mnemonic.decodeOperands]

/-- Everything an operand check can answer. -/
theorem decodeOperands_cases (m : Mnemonic) (w : Window) :
    (m.format ≠ .z ∧ 7 < w.opa.toNat ∧ m.decodeOperands w = .error (.registerIndexOutOfRange w.opa)) ∨
    (m.format = .rr ∧ w.opa.toNat ≤ 7 ∧ 7 < w.opb.toNat ∧
      m.decodeOperands w = .error (.registerIndexOutOfRange w.opb)) ∨
    (∃ i, m.decodeOperands w = .ok i) := by
  by_cases ha : m.format ≠ .z ∧ 7 < w.opa.toNat
  · exact .inl ⟨ha.1, ha.2, decodeOperands_opa ha.1 ha.2⟩
  · have ha' : m.format = .z ∨ w.opa.toNat ≤ 7 := by
      by_cases hz : m.format = .z
      · exact .inl hz
      · exact .inr (Nat.le_of_not_lt fun h => ha ⟨hz, h⟩)
    by_cases hb : m.format = .rr ∧ 7 < w.opb.toNat
    · have hz : m.format ≠ .z := by rw [hb.1]; decide
      exact .inr (.inl ⟨hb.1, ha'.resolve_left hz, hb.2, decodeOperands_opb hb.1 (ha'.resolve_left hz) hb.2⟩)
    · refine .inr (.inr (decodeOperands_inRange ha' ?_))
      by_cases hr : m.format = .rr
      · exact .inr (Nat.le_of_not_lt fun h => hb ⟨hr, h⟩)
      · exact .inl hr

/-- The decoder names an illegal opcode exactly when no row is matched. -/
theorem decode_illegal {p : Params} {w : Window} {ir : Byte} :
    decode p w = .error (.illegalOpcode ir) ↔ opcodeRow p w.ir = none ∧ ir = w.ir := by
  cases h : opcodeRow p w.ir with
  | none =>
    simp only [decode, h, Except.error.injEq, Cause.illegalOpcode.injEq, true_and]
    exact eq_comm
  | some m =>
    rw [decode_row h]
    rcases decodeOperands_cases m w with ⟨_, _, e⟩ | ⟨_, _, _, e⟩ | ⟨i, e⟩ <;> rw [e] <;> simp

/-- The decoder never names an address or a divisor. -/
theorem decode_error_cases {p : Params} {w : Window} {c : Cause} (h : decode p w = .error c) :
    c = .illegalOpcode w.ir ∨ c = .registerIndexOutOfRange w.opa ∨ c = .registerIndexOutOfRange w.opb := by
  cases hr : opcodeRow p w.ir with
  | none =>
    simp only [decode, hr, Except.error.injEq] at h
    exact .inl h.symm
  | some m =>
    rw [decode_row hr] at h
    rcases decodeOperands_cases m w with ⟨_, _, e⟩ | ⟨_, _, _, e⟩ | ⟨i, e⟩ <;> rw [e] at h <;> cases h
    · exact .inr (.inl rfl)
    · exact .inr (.inr rfl)

end Sys2Proof
end

