-- ==== Sys2Proof/Laws/Memory.lean ====
section
/-! SUPPORT. The laws of the memory list: reads after writes, the canonical form and that every operation keeps it. -/

namespace Sys2Proof.Machine

/-! Reads after writes, for every list -/

theorem Memory.read_erase (m : Memory) (a b : Nat) :
    (m.erase a).read b = if b = a then Config.fillByte else m.read b := by
  induction m with
  | nil => simp [Memory.erase, Memory.read]
  | cons c m ih =>
    obtain ⟨k, v⟩ := c
    by_cases hk : k = a <;> by_cases hb : k = b <;> simp_all [Memory.erase, Memory.read]

theorem Memory.read_insert_ne (m : Memory) {a b : Nat} (v : Byte) (h : b ≠ a) :
    (m.insert a v).read b = m.read b := by
  induction m with
  | nil => simp [Memory.insert, Memory.read, Ne.symm h]
  | cons c m ih =>
    obtain ⟨k, w⟩ := c
    by_cases hk : a < k <;> simp [Memory.insert, Memory.read, hk, Ne.symm h, ih]

theorem Memory.read_insert_erase (m : Memory) (a : Nat) (v : Byte) :
    ((m.erase a).insert a v).read a = v := by
  induction m with
  | nil => simp [Memory.erase, Memory.insert, Memory.read]
  | cons c m ih =>
    obtain ⟨k, w⟩ := c
    by_cases hk : k = a
    · simp [Memory.erase, hk, ih]
    · by_cases hl : a < k <;> simp [Memory.erase, Memory.insert, Memory.read, hk, hl, ih]

/-- What any address reads as after a write. -/
theorem Memory.read_write (m : Memory) (a b : Nat) (v : Byte) :
    (m.write a v).read b = if b = a then v else m.read b := by
  unfold Memory.write
  split
  · rename_i h
    simp [Memory.read_erase, h]
  · by_cases hb : b = a
    · subst hb; simp [Memory.read_insert_erase]
    · simp [Memory.read_insert_ne _ _ hb, Memory.read_erase, hb]

@[simp] theorem Memory.read_write_self (m : Memory) (a : Nat) (v : Byte) : (m.write a v).read a = v := by
  simp [Memory.read_write]

theorem Memory.read_write_ne (m : Memory) {a b : Nat} (v : Byte) (h : b ≠ a) : (m.write a v).read b = m.read b := by
  simp [Memory.read_write, h]

/-- What any address reads as after a bounds-checked write of a cell. -/
theorem Memory.read_put (m : Memory) (a b : Nat) (v : Byte) (h : a < 256) :
    (m.put a v).read b = if b = a then v else m.read b := by
  simp [Memory.put, Config.memSize, h, Memory.read_write]

/-! The canonical form -/

/-- The canonical form, one entry at a time. -/
theorem Memory.wfFrom_cons {lo k : Nat} {b : Byte} {m : Memory} :
    Memory.wfFrom lo ((k, b) :: m) = true ↔
      lo ≤ k ∧ k < 256 ∧ b ≠ Config.fillByte ∧ Memory.wfFrom (k + 1) m = true := by
  simp only [Memory.wfFrom, Bool.and_eq_true, decide_eq_true_eq, bne_iff_ne, and_assoc]
  exact Iff.rfl

theorem Memory.wfFrom_mono {lo lo' : Nat} {m : Memory} (h : Memory.wfFrom lo' m = true) (hl : lo ≤ lo') :
    Memory.wfFrom lo m = true := by
  cases m with
  | nil => rfl
  | cons c m =>
    obtain ⟨k, b⟩ := c
    rw [Memory.wfFrom_cons] at h ⊢
    exact ⟨by omega, h.2⟩

theorem Memory.wfFrom_erase {lo : Nat} {m : Memory} (a : Nat) (h : Memory.wfFrom lo m = true) :
    Memory.wfFrom lo (m.erase a) = true := by
  induction m generalizing lo with
  | nil => rfl
  | cons c m ih =>
    obtain ⟨k, b⟩ := c
    rw [Memory.wfFrom_cons] at h
    by_cases hk : k = a
    · simpa [Memory.erase, hk] using Memory.wfFrom_mono (ih h.2.2.2) (by omega)
    · simpa [Memory.erase, hk, Memory.wfFrom_cons] using ⟨h.1, h.2.1, h.2.2.1, ih h.2.2.2⟩

theorem Memory.wfFrom_insert {lo a : Nat} {m : Memory} {v : Byte} (h : Memory.wfFrom lo (m.erase a) = true)
    (hlo : lo ≤ a) (ha : a < 256) (hv : v ≠ Config.fillByte) :
    Memory.wfFrom lo ((m.erase a).insert a v) = true := by
  induction m generalizing lo with
  | nil => exact Memory.wfFrom_cons.mpr ⟨hlo, ha, hv, rfl⟩
  | cons c m ih =>
    obtain ⟨k, b⟩ := c
    by_cases hk : k = a
    · simp only [Memory.erase, hk, if_true] at h ⊢
      exact ih h hlo
    · simp only [Memory.erase, hk, if_false] at h ⊢
      rw [Memory.wfFrom_cons] at h
      by_cases hl : a < k
      · simp only [Memory.insert, hl, if_true]
        simp only [Memory.wfFrom_cons]
        exact ⟨hlo, ha, hv, by omega, h.2.1, h.2.2.1, h.2.2.2⟩
      · simp only [Memory.insert, hl, if_false, Memory.wfFrom_cons]
        exact ⟨h.1, h.2.1, h.2.2.1, ih h.2.2.2 (by omega)⟩

/-- A write inside the address space keeps the canonical form. -/
theorem Memory.wf_write {m : Memory} {a : Nat} (v : Byte) (h : m.wf = true) (ha : a < 256) :
    (m.write a v).wf = true := by
  unfold Memory.write
  split
  · exact Memory.wfFrom_erase a h
  · rename_i hv
    exact Memory.wfFrom_insert (Memory.wfFrom_erase a h) (Nat.zero_le a) ha hv

/-- A bounds-checked write of a cell keeps the canonical form. -/
theorem Memory.wf_put {m : Memory} (a : Nat) (v : Byte) (h : m.wf = true) : (m.put a v).wf = true := by
  unfold Memory.put
  split
  · rename_i ha
    exact Memory.wf_write v h ha
  · exact h

theorem Memory.wfFrom_ofBytes (a : Nat) (bs : List Byte) (h : a + bs.length ≤ 256) :
    Memory.wfFrom a (Memory.ofBytes a bs) = true := by
  induction bs generalizing a with
  | nil => rfl
  | cons b bs ih =>
    simp only [List.length_cons] at h
    have hrec := ih (a + 1) (by omega)
    by_cases hb : b = Config.fillByte
    · simpa [Memory.ofBytes, hb] using Memory.wfFrom_mono hrec (by omega)
    · simpa [Memory.ofBytes, hb, Memory.wfFrom_cons] using ⟨by omega, hrec⟩

/-- The memory of an image is canonical. -/
theorem Memory.wf_image (image : Image) : (Memory.ofBytes 0 image.toList).wf = true :=
  Memory.wfFrom_ofBytes 0 _ (by simp)

/-! Reading a memory made from bytes -/

theorem Memory.read_ofBytes_lt (a b : Nat) (bs : List Byte) (h : b < a) :
    (Memory.ofBytes a bs).read b = Config.fillByte := by
  induction bs generalizing a with
  | nil => rfl
  | cons c bs ih =>
    have hne : a ≠ b := by omega
    by_cases hc : c = Config.fillByte <;> simp [Memory.ofBytes, Memory.read, hc, hne, ih (a + 1) (by omega)]

/-- The byte at an address of a memory made from a list of bytes. -/
theorem Memory.read_ofBytes (a i : Nat) (bs : List Byte) (h : i < bs.length) :
    (Memory.ofBytes a bs).read (a + i) = bs[i] := by
  induction bs generalizing a i with
  | nil => simp at h
  | cons c bs ih =>
    cases i with
    | zero =>
      by_cases hc : c = Config.fillByte
      · simp [Memory.ofBytes, hc, Memory.read_ofBytes_lt (a + 1) a bs (by omega)]
      · simp [Memory.ofBytes, hc, Memory.read]
    | succ i =>
      have hi : i < bs.length := by simpa using h
      have hrec := ih (a + 1) i hi
      have hadd : a + (i + 1) = a + 1 + i := by omega
      have hne : a ≠ a + 1 + i := by omega
      by_cases hc : c = Config.fillByte <;> simp [Memory.ofBytes, Memory.read, hc, hadd, hne, hrec]

/-! Equal memories are equal data -/

theorem Memory.read_lt_of_wfFrom {lo b : Nat} {m : Memory} (h : Memory.wfFrom lo m = true) (hb : b < lo) :
    m.read b = Config.fillByte := by
  induction m generalizing lo with
  | nil => rfl
  | cons c m ih =>
    obtain ⟨k, v⟩ := c
    rw [Memory.wfFrom_cons] at h
    have hne : k ≠ b := by omega
    simpa [Memory.read, hne] using ih h.2.2.2 (by omega)

theorem Memory.eq_of_read_from {lo lo' : Nat} {m n : Memory} (hm : Memory.wfFrom lo m = true)
    (hn : Memory.wfFrom lo' n = true) (h : ∀ a, m.read a = n.read a) : m = n := by
  induction m generalizing lo lo' n with
  | nil =>
    cases n with
    | nil => rfl
    | cons d n =>
      obtain ⟨k, w⟩ := d
      rw [Memory.wfFrom_cons] at hn
      have := h k
      simp only [Memory.read, if_true] at this
      exact absurd this.symm hn.2.2.1
  | cons c m ih =>
    obtain ⟨j, v⟩ := c
    cases n with
    | nil =>
      rw [Memory.wfFrom_cons] at hm
      have := h j
      simp only [Memory.read, if_true] at this
      exact absurd this hm.2.2.1
    | cons d n =>
      obtain ⟨k, w⟩ := d
      rw [Memory.wfFrom_cons] at hm hn
      have hjk : j = k := by
        rcases Nat.lt_trichotomy j k with hl | he | hl
        · have h1 := h j
          have h2 := Memory.read_lt_of_wfFrom hn.2.2.2 (show j < k + 1 by omega)
          have hne : k ≠ j := by omega
          simp only [Memory.read, if_true, hne, if_false, h2] at h1
          exact absurd h1 hm.2.2.1
        · exact he
        · have h1 := h k
          have h2 := Memory.read_lt_of_wfFrom hm.2.2.2 (show k < j + 1 by omega)
          have hne : j ≠ k := by omega
          simp only [Memory.read, if_true, hne, if_false, h2] at h1
          exact absurd h1.symm hn.2.2.1
      subst hjk
      have hvw : v = w := by simpa [Memory.read] using h j
      subst hvw
      refine congrArg _ (ih hm.2.2.2 hn.2.2.2 fun a => ?_)
      by_cases ha : j = a
      · subst ha
        rw [Memory.read_lt_of_wfFrom hm.2.2.2 (by omega), Memory.read_lt_of_wfFrom hn.2.2.2 (by omega)]
      · simpa [Memory.read, ha] using h a

/-- Canonical memories that read alike are the same list. -/
theorem Memory.eq_of_read {m n : Memory} (hm : m.wf = true) (hn : n.wf = true) (h : ∀ a, m.read a = n.read a) : m = n :=
  Memory.eq_of_read_from hm hn h

/-- Writing what a cell already holds leaves a canonical memory as it is (20_memory.md R36). -/
theorem Memory.write_read {m : Memory} {a : Nat} (hm : m.wf = true) (ha : a < 256) : m.write a (m.read a) = m := by
  refine Memory.eq_of_read (Memory.wf_write _ hm ha) hm fun b => ?_
  rw [Memory.read_write]
  split
  · rename_i h; rw [h]
  · rfl

end Sys2Proof.Machine
end

