-- ==== Sys2Proof/Laws/State.lean ====
section
/-! SUPPORT. One lemma per field per update of the state, and reading a register after an update. -/

namespace Sys2Proof.Machine

variable (s : State)

/-! `setReg` -/

@[simp] theorem setReg_pc (r : Reg) (v : Byte) : (s.setReg r v).pc = s.pc := rfl
@[simp] theorem setReg_fl (r : Reg) (v : Byte) : (s.setReg r v).fl = s.fl := rfl
@[simp] theorem setReg_run (r : Reg) (v : Byte) : (s.setReg r v).run = s.run := rfl
@[simp] theorem setReg_err (r : Reg) (v : Byte) : (s.setReg r v).err = s.err := rfl
@[simp] theorem setReg_mem (r : Reg) (v : Byte) : (s.setReg r v).mem = s.mem := rfl
@[simp] theorem setReg_out (r : Reg) (v : Byte) : (s.setReg r v).out = s.out := rfl
@[simp] theorem setReg_params (r : Reg) (v : Byte) : (s.setReg r v).params = s.params := rfl

/-! `setSp` -/

@[simp] theorem setSp_pc (v : Byte) : (s.setSp v).pc = s.pc := rfl
@[simp] theorem setSp_fl (v : Byte) : (s.setSp v).fl = s.fl := rfl
@[simp] theorem setSp_run (v : Byte) : (s.setSp v).run = s.run := rfl
@[simp] theorem setSp_err (v : Byte) : (s.setSp v).err = s.err := rfl
@[simp] theorem setSp_mem (v : Byte) : (s.setSp v).mem = s.mem := rfl
@[simp] theorem setSp_out (v : Byte) : (s.setSp v).out = s.out := rfl
@[simp] theorem setSp_params (v : Byte) : (s.setSp v).params = s.params := rfl

/-! `advance` -/

@[simp] theorem advance_regs (n : Nat) : (s.advance n).regs = s.regs := rfl
@[simp] theorem advance_pc (n : Nat) : (s.advance n).pc = s.pc + BitVec.ofNat 9 n := rfl
@[simp] theorem advance_fl (n : Nat) : (s.advance n).fl = s.fl := rfl
@[simp] theorem advance_run (n : Nat) : (s.advance n).run = s.run := rfl
@[simp] theorem advance_err (n : Nat) : (s.advance n).err = s.err := rfl
@[simp] theorem advance_mem (n : Nat) : (s.advance n).mem = s.mem := rfl
@[simp] theorem advance_out (n : Nat) : (s.advance n).out = s.out := rfl
@[simp] theorem advance_params (n : Nat) : (s.advance n).params = s.params := rfl

/-! `jumpTo` -/

@[simp] theorem jumpTo_regs (v : Byte) : (s.jumpTo v).regs = s.regs := rfl
@[simp] theorem jumpTo_pc (v : Byte) : (s.jumpTo v).pc = v.zeroExtend 9 := rfl
@[simp] theorem jumpTo_fl (v : Byte) : (s.jumpTo v).fl = s.fl := rfl
@[simp] theorem jumpTo_run (v : Byte) : (s.jumpTo v).run = s.run := rfl
@[simp] theorem jumpTo_err (v : Byte) : (s.jumpTo v).err = s.err := rfl
@[simp] theorem jumpTo_mem (v : Byte) : (s.jumpTo v).mem = s.mem := rfl
@[simp] theorem jumpTo_out (v : Byte) : (s.jumpTo v).out = s.out := rfl
@[simp] theorem jumpTo_params (v : Byte) : (s.jumpTo v).params = s.params := rfl

/-! `emit` -/

@[simp] theorem emit_regs (v : Byte) : (s.emit v).regs = s.regs := rfl
@[simp] theorem emit_pc (v : Byte) : (s.emit v).pc = s.pc := rfl
@[simp] theorem emit_fl (v : Byte) : (s.emit v).fl = s.fl := rfl
@[simp] theorem emit_run (v : Byte) : (s.emit v).run = s.run := rfl
@[simp] theorem emit_err (v : Byte) : (s.emit v).err = s.err := rfl
@[simp] theorem emit_mem (v : Byte) : (s.emit v).mem = s.mem := rfl
@[simp] theorem emit_out (v : Byte) : (s.emit v).out = s.out ++ [v] := rfl
@[simp] theorem emit_params (v : Byte) : (s.emit v).params = s.params := rfl

/-! `setFlags` -/

@[simp] theorem setFlags_regs (v : BitVec 3) : (s.setFlags v).regs = s.regs := rfl
@[simp] theorem setFlags_pc (v : BitVec 3) : (s.setFlags v).pc = s.pc := rfl
@[simp] theorem setFlags_fl (v : BitVec 3) : (s.setFlags v).fl = v := rfl
@[simp] theorem setFlags_run (v : BitVec 3) : (s.setFlags v).run = s.run := rfl
@[simp] theorem setFlags_err (v : BitVec 3) : (s.setFlags v).err = s.err := rfl
@[simp] theorem setFlags_mem (v : BitVec 3) : (s.setFlags v).mem = s.mem := rfl
@[simp] theorem setFlags_out (v : BitVec 3) : (s.setFlags v).out = s.out := rfl
@[simp] theorem setFlags_params (v : BitVec 3) : (s.setFlags v).params = s.params := rfl

/-! `raise` -/

@[simp] theorem raise_regs (c : Cause) : (raise c s).regs = s.regs := rfl
@[simp] theorem raise_pc (c : Cause) : (raise c s).pc = s.pc := rfl
@[simp] theorem raise_fl (c : Cause) : (raise c s).fl = s.fl := rfl
@[simp] theorem raise_run (c : Cause) : (raise c s).run = false := rfl
@[simp] theorem raise_err (c : Cause) : (raise c s).err = faultCode c := rfl
@[simp] theorem raise_mem (c : Cause) : (raise c s).mem = s.mem := rfl
@[simp] theorem raise_out (c : Cause) : (raise c s).out = s.out := rfl
@[simp] theorem raise_params (c : Cause) : (raise c s).params = s.params := rfl

/-! `resetRegisters` -/

@[simp] theorem resetRegisters_regs : s.resetRegisters.regs = State.reset.regs := rfl
@[simp] theorem resetRegisters_pc : s.resetRegisters.pc = 0 := rfl
@[simp] theorem resetRegisters_fl : s.resetRegisters.fl = 0 := rfl
@[simp] theorem resetRegisters_run : s.resetRegisters.run = true := rfl
@[simp] theorem resetRegisters_err : s.resetRegisters.err = 0 := rfl
@[simp] theorem resetRegisters_mem : s.resetRegisters.mem = s.mem := rfl
@[simp] theorem resetRegisters_out : s.resetRegisters.out = [] := rfl
@[simp] theorem resetRegisters_params : s.resetRegisters.params = s.params := rfl

/-! `loadCell` -/

@[simp] theorem loadCell_regs (a d : Byte) : (s.loadCell a d).regs = s.regs := rfl
@[simp] theorem loadCell_pc (a d : Byte) : (s.loadCell a d).pc = s.pc := rfl
@[simp] theorem loadCell_fl (a d : Byte) : (s.loadCell a d).fl = s.fl := rfl
@[simp] theorem loadCell_run (a d : Byte) : (s.loadCell a d).run = s.run := rfl
@[simp] theorem loadCell_err (a d : Byte) : (s.loadCell a d).err = s.err := rfl
@[simp] theorem loadCell_mem (a d : Byte) : (s.loadCell a d).mem = s.mem.write a.toNat d := rfl
@[simp] theorem loadCell_out (a d : Byte) : (s.loadCell a d).out = s.out := rfl
@[simp] theorem loadCell_params (a d : Byte) : (s.loadCell a d).params = s.params := rfl

/-! Registers -/

@[simp] theorem reg_setReg_self (r : Reg) (v : Byte) : (s.setReg r v).reg r = v := by
  simp [State.reg, State.setReg]

theorem reg_setReg_ne {r q : Reg} (v : Byte) (h : q ≠ r) : (s.setReg r v).reg q = s.reg q := by
  have hv : r.val ≠ q.val := fun e => h (Fin.ext e.symm)
  simp [State.reg, State.setReg, hv]

/-- Reading any register after a write to one. -/
theorem reg_setReg (r q : Reg) (v : Byte) : (s.setReg r v).reg q = if q = r then v else s.reg q := by
  by_cases h : q = r
  · subst h; simp
  · simp [h, reg_setReg_ne]

/-- The stack pointer is register 7. -/
theorem sp_eq_reg : s.sp = s.reg 7 := rfl

/-- Writing the stack pointer writes register 7. -/
theorem setSp_eq_setReg (v : Byte) : s.setSp v = s.setReg 7 v := rfl

@[simp] theorem sp_setSp (v : Byte) : (s.setSp v).sp = v := reg_setReg_self s Config.spIndex v

theorem reg_setSp_ne {q : Reg} (v : Byte) (h : q ≠ 7) : (s.setSp v).reg q = s.reg q := reg_setReg_ne s v h

theorem sp_setReg_ne {r : Reg} (v : Byte) (h : r ≠ 7) : (s.setReg r v).sp = s.sp := reg_setReg_ne s v (Ne.symm h)

@[simp] theorem reg_advance (n : Nat) (q : Reg) : (s.advance n).reg q = s.reg q := rfl
@[simp] theorem sp_advance (n : Nat) : (s.advance n).sp = s.sp := rfl
@[simp] theorem reg_jumpTo (v : Byte) (q : Reg) : (s.jumpTo v).reg q = s.reg q := rfl
@[simp] theorem sp_jumpTo (v : Byte) : (s.jumpTo v).sp = s.sp := rfl
@[simp] theorem reg_emit (v : Byte) (q : Reg) : (s.emit v).reg q = s.reg q := rfl
@[simp] theorem sp_emit (v : Byte) : (s.emit v).sp = s.sp := rfl
@[simp] theorem reg_setFlags (v : BitVec 3) (q : Reg) : (s.setFlags v).reg q = s.reg q := rfl
@[simp] theorem sp_setFlags (v : BitVec 3) : (s.setFlags v).sp = s.sp := rfl
@[simp] theorem reg_raise (c : Cause) (q : Reg) : (raise c s).reg q = s.reg q := rfl
@[simp] theorem sp_raise (c : Cause) : (raise c s).sp = s.sp := rfl
@[simp] theorem reg_loadCell (a d : Byte) (q : Reg) : (s.loadCell a d).reg q = s.reg q := rfl
@[simp] theorem sp_loadCell (a d : Byte) : (s.loadCell a d).sp = s.sp := rfl

/-- Two states with equal fields are equal. -/
theorem State.eq_of_fields {s t : State} (h1 : s.regs = t.regs) (h2 : s.pc = t.pc) (h3 : s.fl = t.fl) (h4 : s.run = t.run)
    (h5 : s.err = t.err) (h6 : s.mem = t.mem) (h7 : s.out = t.out) (h8 : s.params = t.params) : s = t := by
  cases s; cases t; simp_all

/-- Register files that read alike are equal. -/
theorem State.regs_eq_of_reg {s t : State} (h : ∀ r, s.reg r = t.reg r) : s.regs = t.regs := by
  apply Vector.ext
  intro i hi
  exact h ⟨i, hi⟩

end Sys2Proof.Machine
end

