-- ==== Sys2Proof/Laws/Ops.lean ====
section
/-! SUPPORT. One lemma per shared operation that says everything it can do, and the equation of each instruction. -/

namespace Sys2Proof.Machine

variable (s : State)

/-! The access primitives -/

theorem memRead_eq (addr : Nat) :
    memRead s addr = if addr < 256 then .ok (s.mem.read addr) else .error (.addressOutOfRange addr) := rfl

theorem memWrite_eq (addr : Nat) (v : Byte) :
    memWrite s addr v =
      if addr < 256 then .ok { s with mem := s.mem.write addr v } else .error (.addressOutOfRange addr) := rfl

/-- A stack address is an 8-bit value and always in range (20_memory.md R42). -/
@[simp] theorem memRead_byte (b : Byte) : memRead s b.toNat = .ok (s.mem.read b.toNat) := by
  simp [memRead_eq, b.isLt]

/-- A stack address is an 8-bit value and always in range (20_memory.md R42). -/
@[simp] theorem memWrite_byte (b v : Byte) : memWrite s b.toNat v = .ok { s with mem := s.mem.write b.toNat v } := by
  simp [memWrite_eq, b.isLt]

/-! Completing or faulting -/

@[simp] theorem atomically_ok (t : State) : atomically s (.ok t) = .next t := rfl

@[simp] theorem atomically_error (c : Cause) : atomically s (.error c) = .next (raise c s) := rfl

/-! The stack -/

/-- A push always succeeds: the pointer down by one, one cell written, `v` read after the decrement. -/
theorem pushByte_eq (v : State → Byte) :
    pushByte s v = .ok { s.setSp (s.sp - 1) with mem := s.mem.write (s.sp - 1).toNat (v (s.setSp (s.sp - 1))) } := by
  simp only [pushByte, sp_setSp, memWrite_byte]
  rfl

/-- A pop always succeeds: `put` gets the byte at `sp`, then the pointer goes up by one. -/
theorem popByte_eq (put : State → Byte → State) :
    popByte s put =
      .ok ((put s (s.mem.read s.sp.toNat)).setSp ((put s (s.mem.read s.sp.toNat)).sp + 1)) := by
  simp only [popByte, memRead_byte]

/-! Fetch -/

/-- The fetch faults above 253 and else reads the three bytes (50_execution_engine.md R102). -/
theorem fetch_eq :
    fetch s = if 253 < s.pc.toNat then .error (.addressOutOfRange s.pc.toNat)
      else .ok s.window := by
  unfold fetch State.window
  split
  · rfl
  · rename_i h
    have h0 : s.pc.toNat < 256 := by omega
    have h1 : s.pc.toNat + 1 < 256 := by omega
    have h2 : s.pc.toNat + 2 < 256 := by omega
    simp [memRead_eq, h0, h1, h2]

/-! The branch -/

@[simp] theorem branch_true (a : Reg) : branch true a s = s.jumpTo (s.reg a) := rfl

@[simp] theorem branch_false (a : Reg) : branch false a s = s.advance 2 := rfl

/-! Division -/

/-- A zero divisor raises before anything is written; any other completes. -/
theorem atomically_aluDivideBack (f : Byte → Byte → Byte) (a b : Reg) :
    atomically s (aluDivideBack f a b s) =
      .next (if s.reg b = 0 then raise (.divideByZero s.pc) s else aluWriteBack f a b s) := by
  unfold aluDivideBack
  split <;> rfl

/-! The flags -/

/-- The one flag computation answers one of three values. -/
theorem compareFlags_cases (va vb : Byte) :
    (va.toNat = vb.toNat ∧ compareFlags va vb = 0b001) ∨
    (va.toNat < vb.toNat ∧ compareFlags va vb = 0b100) ∨
    (vb.toNat < va.toNat ∧ compareFlags va vb = 0b010) := by
  rcases Nat.lt_trichotomy va.toNat vb.toNat with h | h | h
  · exact .inr (.inl ⟨h, by simp [compareFlags, h, Nat.ne_of_lt h]⟩)
  · exact .inl ⟨h, by simp [compareFlags, h]⟩
  · refine .inr (.inr ⟨h, ?_⟩)
    have h1 : ¬ va.toNat = vb.toNat := by omega
    have h2 : ¬ va.toNat < vb.toNat := by omega
    simp [compareFlags, h1, h2]

/-! One equation per instruction -/

theorem exec_hlt : exec .hlt s = .next { s with run := false } := rfl

theorem exec_ret :
    exec .ret s = .next ((s.jumpTo (s.mem.read s.sp.toNat)).setSp (s.sp + 1)) := by
  simp only [exec, execRet, popByte_eq, atomically_ok, sp_jumpTo]

theorem exec_push (a : Reg) :
    exec (.push a) s =
      .next (State.advance { s.setSp (s.sp - 1) with
        mem := s.mem.write (s.sp - 1).toNat ((s.setSp (s.sp - 1)).reg a) } 2) := by
  simp only [exec, execPush, pushByte_eq, Except.map, atomically_ok]

theorem exec_pop (a : Reg) :
    exec (.pop a) s =
      .next (((s.setReg a (s.mem.read s.sp.toNat)).setSp
        ((s.setReg a (s.mem.read s.sp.toNat)).sp + 1)).advance 2) := by
  simp only [exec, execPop, popByte_eq, Except.map, atomically_ok]

theorem exec_prn (a : Reg) : exec (.prn a) s = .next ((s.emit (s.reg a)).advance 2) := rfl

theorem exec_call (a : Reg) :
    exec (.call a) s =
      .next (State.jumpTo { s.setSp (s.sp - 1) with
        mem := s.mem.write (s.sp - 1).toNat (returnAddress s) } ((s.setSp (s.sp - 1)).reg a)) := by
  simp only [exec, execCall, pushByte_eq, Except.map, atomically_ok]
  rfl

theorem exec_jmp (a : Reg) : exec (.jmp a) s = .next (s.jumpTo (s.reg a)) := rfl

theorem exec_jeq (a : Reg) : exec (.jeq a) s = .next (branch s.flagE a s) := rfl

theorem exec_jne (a : Reg) : exec (.jne a) s = .next (branch (!s.flagE) a s) := rfl

theorem exec_not (a : Reg) : exec (.not a) s = .next (writeBack s a (aluNot (s.reg a)) 2) := rfl

theorem exec_ldi (a : Reg) (imm : Byte) : exec (.ldi a imm) s = .next (writeBack s a imm 3) := rfl

theorem exec_add (a b : Reg) : exec (.add a b) s = .next (aluWriteBack aluAdd a b s) := rfl

theorem exec_sub (a b : Reg) : exec (.sub a b) s = .next (aluWriteBack aluSub a b s) := rfl

theorem exec_mul (a b : Reg) : exec (.mul a b) s = .next (aluWriteBack aluMul a b s) := rfl

theorem exec_div (a b : Reg) :
    exec (.div a b) s =
      .next (if s.reg b = 0 then raise (.divideByZero s.pc) s else aluWriteBack aluDiv a b s) :=
  atomically_aluDivideBack s aluDiv a b

theorem exec_mod (a b : Reg) :
    exec (.mod a b) s =
      .next (if s.reg b = 0 then raise (.divideByZero s.pc) s else aluWriteBack aluMod a b s) :=
  atomically_aluDivideBack s aluMod a b

theorem exec_cmp (a b : Reg) :
    exec (.cmp a b) s = .next ((s.setFlags (compareFlags (s.reg a) (s.reg b))).advance 3) := rfl

theorem exec_and (a b : Reg) : exec (.and a b) s = .next (aluWriteBack aluAnd a b s) := rfl

theorem exec_or (a b : Reg) : exec (.or a b) s = .next (aluWriteBack aluOr a b s) := rfl

theorem exec_xor (a b : Reg) : exec (.xor a b) s = .next (aluWriteBack aluXor a b s) := rfl

theorem exec_shl (a b : Reg) : exec (.shl a b) s = .next (aluWriteBack aluShl a b s) := rfl

theorem exec_shr (a b : Reg) : exec (.shr a b) s = .next (aluWriteBack aluShr a b s) := rfl

end Sys2Proof.Machine
end

