-- ==== Sys2Proof/Laws/Exec.lean ====
section
/-! SUPPORT. What `exec` can do to each field, over all instructions: which instructions may change it, and how. -/

namespace Sys2Proof.Machine

variable {i : Instr} {s t : State}

/-- The two ways a fault code is bounded. -/
theorem faultCode_bounds (c : Cause) : 1 ≤ (faultCode c).toNat ∧ (faultCode c).toNat ≤ 4 := by
  cases c <;> exact ⟨by simp [faultCode], by simp [faultCode]⟩

/-- The branch of a conditional jump changes only `pc`. -/
theorem branch_eq (taken : Bool) (a : Reg) (s : State) : ∃ pc, branch taken a s = { s with pc := pc } := by
  cases taken
  · exact ⟨_, rfl⟩
  · exact ⟨_, rfl⟩

/-- Every instruction answers a next state, and it is the one that some equation of Laws/Ops.lean gives. -/
theorem exec_next (i : Instr) (s : State) : ∃ t, exec i s = .next t := by
  cases i with
  | hlt => exact ⟨_, exec_hlt s⟩
  | ret => exact ⟨_, exec_ret s⟩
  | push a => exact ⟨_, exec_push s a⟩
  | pop a => exact ⟨_, exec_pop s a⟩
  | prn a => exact ⟨_, exec_prn s a⟩
  | call a => exact ⟨_, exec_call s a⟩
  | jmp a => exact ⟨_, exec_jmp s a⟩
  | jeq a => exact ⟨_, exec_jeq s a⟩
  | jne a => exact ⟨_, exec_jne s a⟩
  | not a => exact ⟨_, exec_not s a⟩
  | ldi a imm => exact ⟨_, exec_ldi s a imm⟩
  | add a b => exact ⟨_, exec_add s a b⟩
  | sub a b => exact ⟨_, exec_sub s a b⟩
  | mul a b => exact ⟨_, exec_mul s a b⟩
  | div a b => exact ⟨_, exec_div s a b⟩
  | mod a b => exact ⟨_, exec_mod s a b⟩
  | cmp a b => exact ⟨_, exec_cmp s a b⟩
  | and a b => exact ⟨_, exec_and s a b⟩
  | or a b => exact ⟨_, exec_or s a b⟩
  | xor a b => exact ⟨_, exec_xor s a b⟩
  | shl a b => exact ⟨_, exec_shl s a b⟩
  | shr a b => exact ⟨_, exec_shr s a b⟩

/-- Only a zero divisor writes `err`. -/
theorem exec_err (h : exec i s = .next t) :
    t.err = s.err ∨ ∃ a b, (i = .mod a b ∨ i = .div a b) ∧ s.reg b = 0 ∧ t = raise (.divideByZero s.pc) s := by
  cases i with
  | jeq a => obtain ⟨pc, e⟩ := branch_eq s.flagE a s; rw [exec_jeq, e] at h; cases h; exact .inl rfl
  | jne a => obtain ⟨pc, e⟩ := branch_eq (!s.flagE) a s; rw [exec_jne, e] at h; cases h; exact .inl rfl
  | div a b =>
    rw [exec_div] at h
    split at h <;> cases h
    · rename_i hb; exact .inr ⟨a, b, .inr rfl, hb, rfl⟩
    · exact .inl rfl
  | mod a b =>
    rw [exec_mod] at h
    split at h <;> cases h
    · rename_i hb; exact .inr ⟨a, b, .inl rfl, hb, rfl⟩
    · exact .inl rfl
  | push a => rw [exec_push] at h; cases h; exact .inl rfl
  | pop a => rw [exec_pop] at h; cases h; exact .inl rfl
  | call a => rw [exec_call] at h; cases h; exact .inl rfl
  | ret => rw [exec_ret] at h; cases h; exact .inl rfl
  | _ => cases h; exact .inl rfl

/-- Only HLT and a zero divisor write `run`. -/
theorem exec_run (h : exec i s = .next t) :
    t.run = s.run ∨ i = .hlt ∨
      ∃ a b, (i = .mod a b ∨ i = .div a b) ∧ s.reg b = 0 ∧ t = raise (.divideByZero s.pc) s := by
  cases i with
  | hlt => exact .inr (.inl rfl)
  | jeq a => obtain ⟨pc, e⟩ := branch_eq s.flagE a s; rw [exec_jeq, e] at h; cases h; exact .inl rfl
  | jne a => obtain ⟨pc, e⟩ := branch_eq (!s.flagE) a s; rw [exec_jne, e] at h; cases h; exact .inl rfl
  | div a b =>
    rw [exec_div] at h
    split at h <;> cases h
    · rename_i hb; exact .inr (.inr ⟨a, b, .inr rfl, hb, rfl⟩)
    · exact .inl rfl
  | mod a b =>
    rw [exec_mod] at h
    split at h <;> cases h
    · rename_i hb; exact .inr (.inr ⟨a, b, .inl rfl, hb, rfl⟩)
    · exact .inl rfl
  | push a => rw [exec_push] at h; cases h; exact .inl rfl
  | pop a => rw [exec_pop] at h; cases h; exact .inl rfl
  | call a => rw [exec_call] at h; cases h; exact .inl rfl
  | ret => rw [exec_ret] at h; cases h; exact .inl rfl
  | _ => cases h; exact .inl rfl

/-- Only CMP writes the flags. -/
theorem exec_fl (h : exec i s = .next t) :
    t.fl = s.fl ∨ ∃ a b, i = .cmp a b ∧ t.fl = compareFlags (s.reg a) (s.reg b) := by
  cases i with
  | jeq a => obtain ⟨pc, e⟩ := branch_eq s.flagE a s; rw [exec_jeq, e] at h; cases h; exact .inl rfl
  | jne a => obtain ⟨pc, e⟩ := branch_eq (!s.flagE) a s; rw [exec_jne, e] at h; cases h; exact .inl rfl
  | div a b => rw [exec_div] at h; split at h <;> cases h <;> exact .inl rfl
  | mod a b => rw [exec_mod] at h; split at h <;> cases h <;> exact .inl rfl
  | push a => rw [exec_push] at h; cases h; exact .inl rfl
  | pop a => rw [exec_pop] at h; cases h; exact .inl rfl
  | call a => rw [exec_call] at h; cases h; exact .inl rfl
  | ret => rw [exec_ret] at h; cases h; exact .inl rfl
  | cmp a b => cases h; exact .inr ⟨a, b, rfl, rfl⟩
  | _ => cases h; exact .inl rfl

/-- Only PUSH and CALL write memory, at the decremented stack pointer. -/
theorem exec_mem (h : exec i s = .next t) :
    t.mem = s.mem ∨
    (∃ a, i = .push a ∧ t.mem = s.mem.write (s.sp - 1).toNat ((s.setSp (s.sp - 1)).reg a)) ∨
    (∃ a, i = .call a ∧ t.mem = s.mem.write (s.sp - 1).toNat (returnAddress s)) := by
  cases i with
  | jeq a => obtain ⟨pc, e⟩ := branch_eq s.flagE a s; rw [exec_jeq, e] at h; cases h; exact .inl rfl
  | jne a => obtain ⟨pc, e⟩ := branch_eq (!s.flagE) a s; rw [exec_jne, e] at h; cases h; exact .inl rfl
  | div a b => rw [exec_div] at h; split at h <;> cases h <;> exact .inl rfl
  | mod a b => rw [exec_mod] at h; split at h <;> cases h <;> exact .inl rfl
  | push a => rw [exec_push] at h; cases h; exact .inr (.inl ⟨a, rfl, rfl⟩)
  | pop a => rw [exec_pop] at h; cases h; exact .inl rfl
  | call a => rw [exec_call] at h; cases h; exact .inr (.inr ⟨a, rfl, rfl⟩)
  | ret => rw [exec_ret] at h; cases h; exact .inl rfl
  | _ => cases h; exact .inl rfl

/-- Only PRN writes the output. -/
theorem exec_out (h : exec i s = .next t) :
    t.out = s.out ∨ ∃ a, i = .prn a ∧ t.out = s.out ++ [s.reg a] := by
  cases i with
  | jeq a => obtain ⟨pc, e⟩ := branch_eq s.flagE a s; rw [exec_jeq, e] at h; cases h; exact .inl rfl
  | jne a => obtain ⟨pc, e⟩ := branch_eq (!s.flagE) a s; rw [exec_jne, e] at h; cases h; exact .inl rfl
  | div a b => rw [exec_div] at h; split at h <;> cases h <;> exact .inl rfl
  | mod a b => rw [exec_mod] at h; split at h <;> cases h <;> exact .inl rfl
  | push a => rw [exec_push] at h; cases h; exact .inl rfl
  | pop a => rw [exec_pop] at h; cases h; exact .inl rfl
  | call a => rw [exec_call] at h; cases h; exact .inl rfl
  | ret => rw [exec_ret] at h; cases h; exact .inl rfl
  | prn a => cases h; exact .inr ⟨a, rfl, rfl⟩
  | _ => cases h; exact .inl rfl

/-- No instruction writes the parameters. -/
theorem exec_params (h : exec i s = .next t) : t.params = s.params := by
  cases i with
  | jeq a => obtain ⟨pc, e⟩ := branch_eq s.flagE a s; rw [exec_jeq, e] at h; cases h; rfl
  | jne a => obtain ⟨pc, e⟩ := branch_eq (!s.flagE) a s; rw [exec_jne, e] at h; cases h; rfl
  | div a b => rw [exec_div] at h; split at h <;> cases h <;> rfl
  | mod a b => rw [exec_mod] at h; split at h <;> cases h <;> rfl
  | push a => rw [exec_push] at h; cases h; rfl
  | pop a => rw [exec_pop] at h; cases h; rfl
  | call a => rw [exec_call] at h; cases h; rfl
  | ret => rw [exec_ret] at h; cases h; rfl
  | _ => cases h; rfl

/-! Numbers that the meanings form -/

/-- A target is zero-extended (43_control_transfer.md R90). -/
theorem zeroExtend_toNat (v : Byte) : (v.zeroExtend 9).toNat = v.toNat := by
  have := v.isLt
  simp only [BitVec.truncate_eq_setWidth, BitVec.toNat_setWidth]
  omega

/-- The stack pointer goes down by one modulo 256. -/
theorem sub_one_toNat (b : Byte) : (b - 1).toNat = (b.toNat + 255) % 256 := by
  have := b.isLt
  have h1 : (1 : Byte).toNat = 1 := rfl
  simp only [BitVec.toNat_sub, h1]
  omega

/-- The stack pointer goes up by one modulo 256. -/
theorem add_one_toNat (b : Byte) : (b + 1).toNat = (b.toNat + 1) % 256 := by
  have h1 : (1 : Byte).toNat = 1 := rfl
  simp only [BitVec.toNat_add, h1]

/-- The fixed increment does not wrap from a pc that can execute. -/
theorem add_pc_toNat (pc : Pc) (n : Nat) (h : pc.toNat ≤ 253) (hn : n ≤ 3) :
    (pc + BitVec.ofNat 9 n).toNat = pc.toNat + n := by
  simp only [BitVec.toNat_add, BitVec.toNat_ofNat]
  omega

end Sys2Proof.Machine
end

