-- ==== Sys2Proof/Laws/PerInstr.lean ====
section
/-! SUPPORT. The statements that hold of every instruction as syntax, one lemma per constructor. -/

namespace Sys2Proof.Laws.EncodedLength

/-- The encoding has the length of the instruction's format, and with any well-formed map that is one more than the opcode's
bits 7:6 (30_encoding.md R47). -/
def Statement (i : Instr) : Prop :=
  ∀ p : Params, (encode p i).length = i.length ∧
    (p.opcodes.wf = true → i.length = operandCountField (p.opcodes.byte i.mnemonic) + 1)

/-- The second half holds by the row alone. -/
theorem of_length (i : Instr) (h : i.operandBytes.length = i.mnemonic.format.operandCount) : Statement i := fun _ =>
  ⟨congrArg (· + 1) h, fun hw => congrArg (· + 1) (OpcodeMap.operandCount_eq hw i.mnemonic).symm⟩

theorem hlt : Statement .hlt := of_length _ rfl
theorem ret : Statement .ret := of_length _ rfl
theorem push (a : Reg) : Statement (.push a) := of_length _ rfl
theorem pop (a : Reg) : Statement (.pop a) := of_length _ rfl
theorem prn (a : Reg) : Statement (.prn a) := of_length _ rfl
theorem call (a : Reg) : Statement (.call a) := of_length _ rfl
theorem jmp (a : Reg) : Statement (.jmp a) := of_length _ rfl
theorem jeq (a : Reg) : Statement (.jeq a) := of_length _ rfl
theorem jne (a : Reg) : Statement (.jne a) := of_length _ rfl
theorem not (a : Reg) : Statement (.not a) := of_length _ rfl
theorem ldi (a : Reg) (imm : Byte) : Statement (.ldi a imm) := of_length _ rfl
theorem add (a b : Reg) : Statement (.add a b) := of_length _ rfl
theorem sub (a b : Reg) : Statement (.sub a b) := of_length _ rfl
theorem mul (a b : Reg) : Statement (.mul a b) := of_length _ rfl
theorem div (a b : Reg) : Statement (.div a b) := of_length _ rfl
theorem mod (a b : Reg) : Statement (.mod a b) := of_length _ rfl
theorem cmp (a b : Reg) : Statement (.cmp a b) := of_length _ rfl
theorem and (a b : Reg) : Statement (.and a b) := of_length _ rfl
theorem or (a b : Reg) : Statement (.or a b) := of_length _ rfl
theorem xor (a b : Reg) : Statement (.xor a b) := of_length _ rfl
theorem shl (a b : Reg) : Statement (.shl a b) := of_length _ rfl
theorem shr (a b : Reg) : Statement (.shr a b) := of_length _ rfl

end Sys2Proof.Laws.EncodedLength
end

