-- ==== Sys2Proof/Laws/Step.lean ====
section
/-! SUPPORT. What a step can do: one equation for each of the ways through `step`, and placing a table word. -/

namespace Sys2Proof.Machine

theorem fetchDecode_eq (s : State) :
    fetchDecode s = if 253 < s.pc.toNat then .error (.addressOutOfRange s.pc.toNat)
      else decode s.params s.window := by
  unfold fetchDecode
  rw [fetch_eq]
  by_cases h : 253 < s.pc.toNat
  · rw [if_pos h, if_pos h]
  · rw [if_neg h, if_neg h]

theorem step_stopped {s : State} (h : s.run = false) : step s = .next s := by simp [step, h]

theorem step_running {s : State} (h : s.run = true) :
    step s = match fetchDecode s with
      | .ok i => exec i s
      | .error c => .next (raise c s) := by
  exact if_pos h

theorem step_fetchFault {s : State} (h : s.run = true) (hp : 253 < s.pc.toNat) :
    step s = .next (raise (.addressOutOfRange s.pc.toNat) s) := by
  rw [step_running h, fetchDecode_eq, if_pos hp]

theorem step_decodeFault {s : State} {c : Cause} (h : s.run = true) (hp : s.pc.toNat ≤ 253)
    (hd : decode s.params s.window = .error c) : step s = .next (raise c s) := by
  rw [step_running h, fetchDecode_eq, if_neg (by omega), hd]

theorem step_exec {s : State} {i : Instr} (h : s.run = true) (hp : s.pc.toNat ≤ 253)
    (hd : decode s.params s.window = .ok i) : step s = exec i s := by
  rw [step_running h, fetchDecode_eq, if_neg (by omega), hd]

/-- Every way a step can end: stopped, faulted before execute, or the decoded instruction's own answer. -/
theorem step_cases (s : State) :
    (s.run = false ∧ step s = .next s) ∨
    (s.run = true ∧ ∃ c, fetchDecode s = .error c ∧ step s = .next (raise c s)) ∨
    (s.run = true ∧ s.pc.toNat ≤ 253 ∧ ∃ i, decode s.params s.window = .ok i ∧ step s = exec i s) := by
  cases hr : s.run with
  | false => exact .inl ⟨rfl, step_stopped hr⟩
  | true =>
    cases hf : fetchDecode s with
    | error c => exact .inr (.inl ⟨rfl, c, rfl, by rw [step_running hr, hf]⟩)
    | ok i =>
      rw [fetchDecode_eq] at hf
      split at hf
      · cases hf
      · exact .inr (.inr ⟨rfl, by omega, i, hf, step_exec hr (by omega) hf⟩)

theorem fetchDecode_ok {s : State} {i : Instr} (hp : s.pc.toNat ≤ 253) (hd : decode s.params s.window = .ok i) :
    fetchDecode s = .ok i := by
  rw [fetchDecode_eq, if_neg (by omega), hd]

theorem step_fault {s : State} {c : Cause} (h : s.run = true) (hf : fetchDecode s = .error c) :
    step s = .next (raise c s) := by
  rw [step_running h, hf]

/-- A placed window is the window the next step fetches, from any pc that can execute. -/
theorem window_placeWindow (s : State) (w : Window) (hp : s.pc.toNat ≤ 253) : (s.placeWindow w).window = w := by
  have h0 : s.pc.toNat < 256 := by omega
  have h1 : s.pc.toNat + 1 < 256 := by omega
  have h2 : s.pc.toNat + 2 < 256 := by omega
  simp [State.window, State.placeWindow, Memory.read_put, h0, h1, h2]

end Sys2Proof.Machine
end

