-- ==== Sys2Proof/Tests/Slice0.lean ====
section
/-! SUPPORT. The model's own tests: the checks of WellFormed, decoding of words written out from 30_encoding.md R51, at most
two steps an instruction with the expected values of 95_test_vectors.md, and the witnesses of the statements' hypotheses. -/

namespace Sys2Proof.Tests

open Sys2Proof.Machine Sys2Proof.Claims

/-! Helpers -/

/-- The reset state with a window at `pc` and registers set. -/
def at3 (pc : Pc) (w : Window) (regs : List (Reg × Byte)) : State :=
  (regs.foldl (fun (s : State) (r : Reg × Byte) => s.setReg r.1 r.2) { State.reset with pc := pc }).placeWindow w

/-- What one step gives, read by `f`. -/
def after {α : Type} (s : State) (f : State → α) : Option α :=
  match step s with
  | .next t => some (f t)
  | .fault _ => none
  | .refused _ => none

/-! Well-formedness: an ill-formed term for each check -/

theorem test_div_needs_hasDiv : (Instr.div 0 1).wellFormed Params.standard = false := by decide
theorem test_div_with_hasDiv : (Instr.div 0 1).wellFormed Params.table = true := by decide
theorem test_map_standard : OpcodeMap.standard.wf = true := by decide
theorem test_map_two_rows_one_byte : { OpcodeMap.standard with add := 0xA1 }.wf = false := by decide
theorem test_map_wrong_operand_count : { OpcodeMap.standard with hlt := 0x41 }.wf = false := by decide
/-- R46: a map whose byte has another `B`, another `C`, another row's `AABCDDDD`; decoding can use the first two. -/
theorem test_layout_standard : OpcodeMap.standard.hasLayout = true := by decide
theorem test_layout_wrong_alu_bit : { OpcodeMap.standard with ldi := 0xAE }.hasLayout = false ∧
    { OpcodeMap.standard with ldi := 0xAE }.wf = true := by decide
theorem test_layout_wrong_pc_bit : { OpcodeMap.standard with jmp := 0x44 }.hasLayout = false ∧
    { OpcodeMap.standard with jmp := 0x44 }.wf = true := by decide
theorem test_layout_shared_identifier : { OpcodeMap.standard with add := 0xA1 }.hasLayout = false := by decide
/-- R51, the binary column of NOT, `01101001`, and of JEQ, `01010101`, field by field. -/
theorem test_fields_not_jeq :
    (operandCountField 0b01101001, aluField 0b01101001, setsPcField 0b01101001, identifierField 0b01101001) =
      (1, true, false, 9) ∧
    (operandCountField 0b01010101, aluField 0b01010101, setsPcField 0b01010101, identifierField 0b01010101) =
      (1, false, true, 5) := by decide
theorem test_memory_unsorted : Memory.wf [(2, 1), (1, 1)] = false := by decide
theorem test_memory_repeated : Memory.wf [(1, 1), (1, 2)] = false := by decide
theorem test_memory_lists_fill : Memory.wf [(1, 0)] = false := by decide
theorem test_memory_outside : Memory.wf [(256, 1)] = false := by decide

/-! Decoding: a word for every row, from the binary column of R51 -/

theorem test_decode_hlt : decode Params.standard ⟨0b00000001, 0xFF, 0xFF⟩ = .ok .hlt := by decide
theorem test_decode_ret : decode Params.standard ⟨0b00010001, 0xFF, 0xFF⟩ = .ok .ret := by decide
theorem test_decode_push : decode Params.standard ⟨0b01000101, 0b00000001, 0xFF⟩ = .ok (.push 1) := by decide
theorem test_decode_pop : decode Params.standard ⟨0b01000110, 0b00000010, 0xFF⟩ = .ok (.pop 2) := by decide
theorem test_decode_prn : decode Params.standard ⟨0b01000111, 0b00000011, 0xFF⟩ = .ok (.prn 3) := by decide
theorem test_decode_call : decode Params.standard ⟨0b01010000, 0b00000100, 0xFF⟩ = .ok (.call 4) := by decide
theorem test_decode_jmp : decode Params.standard ⟨0b01010100, 0b00000101, 0xFF⟩ = .ok (.jmp 5) := by decide
theorem test_decode_jeq : decode Params.standard ⟨0b01010101, 0b00000110, 0xFF⟩ = .ok (.jeq 6) := by decide
theorem test_decode_jne : decode Params.standard ⟨0b01010110, 0b00000111, 0xFF⟩ = .ok (.jne 7) := by decide
theorem test_decode_not : decode Params.standard ⟨0b01101001, 0b00000000, 0x01⟩ = .ok (.not 0) := by decide
theorem test_decode_ldi : decode Params.standard ⟨0b10000010, 0b00000001, 0b11111111⟩ = .ok (.ldi 1 255) := by decide
theorem test_decode_add : decode Params.standard ⟨0b10100000, 0b00000001, 0b00000010⟩ = .ok (.add 1 2) := by decide
theorem test_decode_sub : decode Params.standard ⟨0b10100001, 0b00000010, 0b00000011⟩ = .ok (.sub 2 3) := by decide
theorem test_decode_mul : decode Params.standard ⟨0b10100010, 0b00000011, 0b00000100⟩ = .ok (.mul 3 4) := by decide
theorem test_decode_div : decode Params.table ⟨0b10100011, 0b00000100, 0b00000101⟩ = .ok (.div 4 5) := by decide
theorem test_decode_mod : decode Params.standard ⟨0b10100100, 0b00000101, 0b00000110⟩ = .ok (.mod 5 6) := by decide
theorem test_decode_cmp : decode Params.standard ⟨0b10100111, 0b00000110, 0b00000111⟩ = .ok (.cmp 6 7) := by decide
theorem test_decode_and : decode Params.standard ⟨0b10101000, 0b00000111, 0b00000000⟩ = .ok (.and 7 0) := by decide
theorem test_decode_or : decode Params.standard ⟨0b10101010, 0b00000001, 0b00000000⟩ = .ok (.or 1 0) := by decide
theorem test_decode_xor : decode Params.standard ⟨0b10101011, 0b00000010, 0b00000001⟩ = .ok (.xor 2 1) := by decide
theorem test_decode_shl : decode Params.standard ⟨0b10101100, 0b00000011, 0b00000010⟩ = .ok (.shl 3 2) := by decide
theorem test_decode_shr : decode Params.standard ⟨0b10101101, 0b00000100, 0b00000011⟩ = .ok (.shr 4 3) := by decide

/-- 30_encoding.md R53: the LS-8 family's other opcodes are illegal here, 0x00 and DIV's among them. -/
theorem test_decode_illegal :
    [0x00, 0x83, 0x84, 0x65, 0x66, 0xA3, 0x48, 0x52, 0x13, 0x57, 0x58, 0x59, 0x5A, 0xC0, 0xA5, 0xFF].map
      (fun ir : Byte => opcodeRow Params.standard ir) = List.replicate 16 none := by decide

/-- V-ALU, operand checks: `A0 08 09` reports operand a, `A0 00 09` operand b. -/
theorem test_decode_operand_order :
    decode Params.standard ⟨0xA0, 0x08, 0x09⟩ = .error (.registerIndexOutOfRange 0x08) ∧
    decode Params.standard ⟨0xA0, 0x00, 0x09⟩ = .error (.registerIndexOutOfRange 0x09) := by decide

theorem test_table_word_ldi : decodeTableWord 24 0x080082 = some (.ldi 0 8) := by decide
theorem test_table_word_masks_above_nbits : decodeTableWord 8 0xFFFF47 = some (.prn 0) := by decide
/-- R56 examples: `LDI R0,8` and `MUL R0,R1`. -/
theorem test_assembly : (Instr.ldi 0 8).assembly = "LDI R0,8" ∧ (Instr.mul 0 1).assembly = "MUL R0,R1" := by decide
theorem test_encode_mul : encode Params.standard (.mul 0 1) = [0xA2, 0x00, 0x01] := by decide

/-! One step an instruction, expected values from 95_test_vectors.md -/

/-- V-BASIC 11: the highest address where HLT works. -/
theorem test_hlt_at_253 : after (at3 253 ⟨0x01, 0, 0⟩ []) (fun t => (t.run, t.err, t.pc)) = some (false, 0, 253) := by decide
/-- V-BASIC 12: at 0xFE the fetch faults first. -/
theorem test_hlt_at_254 : after { at3 0 ⟨0, 0, 0⟩ [] with pc := 254, mem := [(254, 0x01)] }
    (fun t => (t.run, t.err, t.pc)) = some (false, 4, 254) := by decide
/-- V-BASIC 2: LDI into the stack pointer. -/
theorem test_ldi_sp : after (at3 0 ⟨0x82, 0x07, 0x20⟩ []) (fun t => (t.sp, t.pc)) = some (0x20, 3) := by decide
/-- V-BASIC 5: from 253 the pc becomes 256. -/
theorem test_ldi_at_253 : after (at3 253 ⟨0x82, 0x01, 0x55⟩ []) (fun t => (t.reg 1, t.pc)) = some (0x55, 256) := by decide
/-- V-BASIC 8: PRN of the stack pointer. -/
theorem test_prn_sp : after (at3 0 ⟨0x47, 0x07, 0⟩ []) (fun t => (t.out, t.pc)) = some ([244], 2) := by decide
/-- V-BASIC 9: a bad index emits nothing. -/
theorem test_prn_index : after (at3 0 ⟨0x47, 0x09, 0⟩ []) (fun t => (t.run, t.err, t.out, t.pc)) =
    some (false, 3, [], 0) := by decide
/-- V-ALU: 200 + 100 = 44. -/
theorem test_add_wraps : after (at3 0 ⟨0xA0, 1, 2⟩ [(1, 0xC8), (2, 0x64)]) (fun t => (t.reg 1, t.reg 2)) =
    some (0x2C, 0x64) := by decide
/-- V-ALU, a = b: 0x80 + 0x80 = 0. -/
theorem test_add_same : after (at3 0 ⟨0xA0, 1, 1⟩ [(1, 0x80)]) (fun t => t.reg 1) = some 0x00 := by decide
/-- V-ALU: 5 - 10 = 251. -/
theorem test_sub_borrows : after (at3 0 ⟨0xA1, 1, 2⟩ [(1, 5), (2, 10)]) (fun t => t.reg 1) = some 251 := by decide
/-- V-ALU: 255 * 255 = 65025, low byte 1. -/
theorem test_mul_low_byte : after (at3 0 ⟨0xA2, 1, 2⟩ [(1, 255), (2, 255)]) (fun t => t.reg 1) = some 1 := by decide
/-- V-ALU: 200 / 7 = 28, on a machine with `HAS_DIV`. -/
theorem test_div : after (at3 0 ⟨0xA3, 1, 2⟩ [(1, 200), (2, 7)]) (fun t => t.reg 1) = some 28 := by decide
/-- V-DEC 2: DIV's byte is illegal by default. -/
theorem test_div_illegal : after { State.reset with mem := [(0, 0xA3)] } (fun t => (t.run, t.err, t.pc)) =
    some (false, 2, 0) := by decide
/-- V-ALU: 128 mod 127 = 1, unsigned. -/
theorem test_mod_unsigned : after (at3 0 ⟨0xA4, 1, 2⟩ [(1, 0x80), (2, 0x7F)]) (fun t => (t.reg 1, t.pc)) =
    some (1, 3) := by decide
/-- P5: MOD by zero at pc 6. -/
theorem test_mod_zero : after (at3 6 ⟨0xA4, 0, 1⟩ [(0, 7), (1, 0)]) (fun t => (t.run, t.err, t.reg 0, t.pc)) =
    some (false, 1, 7, 6) := by decide
/-- V-ALU, CMP: 0x80 is above 0x7F. -/
theorem test_cmp_unsigned : after (at3 0 ⟨0xA7, 1, 2⟩ [(1, 0x80), (2, 0x7F)]) (fun t => t.fl) = some 0b010 := by decide
/-- V-ALU, CMP: from `fl` 100, equal values give 001. -/
theorem test_cmp_clears : after { at3 0 ⟨0xA7, 1, 1⟩ [] with fl := 0b100 } (fun t => t.fl) = some 0b001 := by decide
theorem test_and : after (at3 0 ⟨0xA8, 0, 1⟩ [(0, 0xF0), (1, 0x3C)]) (fun t => t.reg 0) = some 0x30 := by decide
theorem test_or : after (at3 0 ⟨0xAA, 0, 1⟩ [(0, 0xF0), (1, 0x3C)]) (fun t => t.reg 0) = some 0xFC := by decide
theorem test_xor : after (at3 0 ⟨0xAB, 0, 1⟩ [(0, 0xF0), (1, 0x3C)]) (fun t => t.reg 0) = some 0xCC := by decide
/-- V-ALU, NOT: the third byte does not matter. -/
theorem test_not : after (at3 3 ⟨0x69, 0, 0xEE⟩ [(0, 0xA5)]) (fun t => (t.reg 0, t.pc)) = some (0x5A, 5) := by decide
/-- V-ALU, SHL: bit 7 is lost. -/
theorem test_shl : after (at3 0 ⟨0xAC, 0, 1⟩ [(0, 0x81), (1, 1)]) (fun t => t.reg 0) = some 0x02 := by decide
/-- V-ALU, SHL: count 255 is not reduced. -/
theorem test_shl_255 : after (at3 0 ⟨0xAC, 0, 1⟩ [(0, 0xFF), (1, 0xFF)]) (fun t => t.reg 0) = some 0x00 := by decide
/-- V-ALU, SHR: logical. -/
theorem test_shr : after (at3 0 ⟨0xAD, 0, 1⟩ [(0, 0x80), (1, 1)]) (fun t => t.reg 0) = some 0x40 := by decide
/-- V-ALU, SHR: count 8 is the width. -/
theorem test_shr_8 : after (at3 0 ⟨0xAD, 0, 1⟩ [(0, 0xFF), (1, 8)]) (fun t => t.reg 0) = some 0x00 := by decide
/-- V-STK 3: the stack pointer wraps down. -/
theorem test_push_wraps : after (at3 0x10 ⟨0x45, 0, 0⟩ [(0, 0xAB), (7, 0)]) (fun t => (t.sp, t.mem.read 0xFF, t.pc)) =
    some (0xFF, 0xAB, 0x12) := by decide
/-- V-STK 5: PUSH R7 stores the decremented value. -/
theorem test_push_sp : after (at3 0 ⟨0x45, 7, 0⟩ []) (fun t => (t.sp, t.mem.read 0xF3)) = some (0xF3, 0xF3) := by decide
/-- V-STK 2: POP keeps the cell. -/
theorem test_pop : after { at3 0 ⟨0x46, 0, 0⟩ [(7, 0xF3)] with mem := [(0, 0x46), (0xF3, 5)] }
    (fun t => (t.reg 0, t.sp, t.mem.read 0xF3, t.pc)) = some (5, 0xF4, 5, 2) := by decide
/-- V-STK 6: POP R7 loads and then increments. -/
theorem test_pop_sp : after { at3 0 ⟨0x46, 7, 0⟩ [(7, 0xF3)] with mem := [(0, 0x46), (1, 7), (0xF3, 0x20)] }
    (fun t => t.sp) = some 0x21 := by decide
/-- V-JMP 1: CALL pushes pc + 2. -/
theorem test_call : after (at3 6 ⟨0x50, 1, 0⟩ [(1, 0x0B)]) (fun t => (t.sp, t.mem.read 0xF3, t.pc)) =
    some (0xF3, 8, 0x0B) := by decide
/-- V-JMP 3: CALL R7 jumps to the decremented stack pointer. -/
theorem test_call_sp : after (at3 0 ⟨0x50, 7, 0⟩ []) (fun t => (t.mem.read 0xF3, t.pc)) = some (2, 0xF3) := by decide
/-- V-JMP 2. -/
theorem test_ret : after { at3 0x0E ⟨0x11, 0, 0⟩ [(7, 0xF3)] with mem := [(0x0E, 0x11), (0xF3, 8)] }
    (fun t => (t.pc, t.sp)) = some (8, 0xF4) := by decide
/-- V-JMP 5: a target that is too high does not fault the jump. -/
theorem test_jmp : after (at3 3 ⟨0x54, 0, 0⟩ [(0, 0xFE)]) (fun t => (t.pc, t.run)) = some (0xFE, true) := by decide
/-- V-JMP 6 and 8: JEQ. -/
theorem test_jeq_taken : after { at3 0x0C ⟨0x55, 2, 0⟩ [(2, 0x10)] with fl := 0b001 } (fun t => t.pc) = some 0x10 := by decide
theorem test_jeq_before_cmp : after (at3 0x0C ⟨0x55, 2, 0⟩ [(2, 0x10)]) (fun t => t.pc) = some 0x0E := by decide
/-- V-JMP 10 and 11: JNE. -/
theorem test_jne_not_taken : after { at3 0x18 ⟨0x56, 4, 0⟩ [(4, 0x0F)] with fl := 0b001 } (fun t => t.pc) =
    some 0x1A := by decide
theorem test_jne_before_cmp : after (at3 3 ⟨0x56, 0, 0⟩ [(0, 6)]) (fun t => t.pc) = some 6 := by decide

/-- V-DEC 1: an empty machine's first step. -/
theorem test_reset_step : after State.reset (fun t => (t.run, t.err, t.pc)) = some (false, 2, 0) := by decide
/-- V-BASIC 13. -/
theorem test_stopped : after { State.reset with run := false } id = some { State.reset with run := false } := by decide
/-- 60_exceptions.md R136: at pc 254 the third byte is absent. -/
theorem test_debug_view : ({ State.reset with pc := 254, mem := [(255, 9)] } : State).debugView.window =
    [some 0, some 9, none] := by decide
theorem test_image_refused : imageOfProgram [] = none := by decide
theorem test_placed_word_runs : step (State.reset.withFetchWord 24 0x0201A0) =
    exec (.add 1 2) (State.reset.withFetchWord 24 0x0201A0) := by rfl
theorem test_placed_div_runs : after (({ State.reset with pc := 0 }.setReg 1 2).withFetchWord 24 0x0100A3)
    (fun t => (t.run, t.pc)) = some (true, 3) := by decide

/-! ## Witnesses: for each statement with hypotheses, states and operands that meet them, clause by clause -/

/-- Any window at the highest pc that can execute. -/
def top (w : Window) : State := at3 253 w []

theorem top_ready (w : Window) : Ready (top w) := ⟨rfl, by show (253 : Pc).toNat ≤ 253; decide⟩
theorem top_window (w : Window) : (top w).window = w := window_placeWindow _ w (by decide)
theorem top_standardMap (w : Window) : StandardMap (top w) := rfl

/-- The three clauses of `ChecksOperandsRR`: operand a just too high, operand b just too high, both at 7. -/
def WitnessRR (code : Byte) : Prop :=
  (Ready (top ⟨code, 8, 0⟩) ∧ StandardMap (top ⟨code, 8, 0⟩) ∧ (top ⟨code, 8, 0⟩).window.ir = code ∧
    7 < (top ⟨code, 8, 0⟩).window.opa.toNat) ∧
  (Ready (top ⟨code, 7, 8⟩) ∧ StandardMap (top ⟨code, 7, 8⟩) ∧ (top ⟨code, 7, 8⟩).window.ir = code ∧
    (top ⟨code, 7, 8⟩).window.opa.toNat ≤ 7 ∧ 7 < (top ⟨code, 7, 8⟩).window.opb.toNat) ∧
  (Ready (top ⟨code, 7, 7⟩) ∧ StandardMap (top ⟨code, 7, 7⟩) ∧ (top ⟨code, 7, 7⟩).window.ir = code ∧
    (top ⟨code, 7, 7⟩).window.opa.toNat = (7 : Reg).val ∧ (top ⟨code, 7, 7⟩).window.opb.toNat = (7 : Reg).val)

theorem witnessRR (code : Byte) : WitnessRR code := by
  simp only [WitnessRR, top_window]
  exact ⟨⟨top_ready _, rfl, trivial, by decide⟩, ⟨top_ready _, rfl, trivial, by decide, by decide⟩,
    ⟨top_ready _, rfl, trivial, by decide, by decide⟩⟩

/-- The two clauses of `ChecksOperandR`: operand a just too high, operand a at 7. -/
def WitnessR (code : Byte) : Prop :=
  (Ready (top ⟨code, 8, 0xFF⟩) ∧ StandardMap (top ⟨code, 8, 0xFF⟩) ∧ (top ⟨code, 8, 0xFF⟩).window.ir = code ∧
    7 < (top ⟨code, 8, 0xFF⟩).window.opa.toNat) ∧
  (Ready (top ⟨code, 7, 0xFF⟩) ∧ StandardMap (top ⟨code, 7, 0xFF⟩) ∧ (top ⟨code, 7, 0xFF⟩).window.ir = code ∧
    (top ⟨code, 7, 0xFF⟩).window.opa.toNat = (7 : Reg).val)

theorem witnessR (code : Byte) : WitnessR code := by
  simp only [WitnessR, top_window]
  exact ⟨⟨top_ready _, rfl, trivial, by decide⟩, ⟨top_ready _, rfl, trivial, by decide⟩⟩

theorem witness_DecodeInvertsEncode :
    (Params.standard.opcodes.wf = true ∧ (Instr.shr 7 7).wellFormed Params.standard = true) ∧
    (Params.table.opcodes.wf = true ∧ (Instr.div 7 0).wellFormed Params.table = true) := by decide

theorem witness_DecodedInstructionReencodes :
    decode Params.standard ⟨0x82, 0x07, 0xFF⟩ = .ok (.ldi 7 255) ∧ decode Params.standard ⟨0x01, 0xFF, 0xFF⟩ = .ok .hlt := by
  decide

/-- `OpcodeFieldsClassifyInstructions`: an ALU row that runs and goes on, an untaken and a taken jump, rows with equal `AABC`. -/
theorem witness_OpcodeFieldsClassifyInstructions :
    (aluField (OpcodeMap.standard.byte .add) = true ∧
      ∃ t, exec (.add 1 2) State.reset = .next t ∧ t.run = true) ∧
    (setsPcField (OpcodeMap.standard.byte .jeq) = true ∧ ∃ t, exec (.jeq 0) { State.reset with fl := 0b001 } = .next t ∧
      t.run = true ∧ t.pc ≠ 2) ∧
    ((OpcodeMap.standard.byte .add).toNat / 16 = (OpcodeMap.standard.byte .shr).toNat / 16 ∧
      identifierField (OpcodeMap.standard.byte .add) ≠ identifierField (OpcodeMap.standard.byte .shr)) :=
  ⟨⟨rfl, _, rfl, rfl⟩, ⟨rfl, _, rfl, rfl, by decide⟩, rfl, by decide⟩

theorem witness_OtherBytesAreIllegal :
    (0xA3 : Byte) = 0xA3 ∧
    (0x00 : Byte) ∉ ([0x01, 0x11, 0x45, 0x46, 0x47, 0x50, 0x54, 0x55, 0x56, 0x69, 0x82, 0xA0, 0xA1, 0xA2, 0xA4, 0xA7, 0xA8,
      0xAA, 0xAB, 0xAC, 0xAD] : List Byte) := by decide

theorem witness_PlacedTableWordRuns :
    (top ⟨0, 0, 0⟩).pc.toNat ≤ 253 ∧ StandardMap (top ⟨0, 0, 0⟩) ∧
    decodeTableWord 24 0x0707A3 = some (.div 7 7) ∧ decodeTableWord 8 0x11 = some .ret :=
  ⟨by decide, rfl, by decide, by decide⟩

theorem witness_StepRunsDecodedInstruction :
    Ready (top ⟨0x11, 0, 0⟩) ∧ decode (top ⟨0x11, 0, 0⟩).params (top ⟨0x11, 0, 0⟩).window = .ok .ret :=
  ⟨top_ready _, by decide⟩

/-- `StepFollowsItsPhases`: stopped; pc at 254; a byte of no row; an operand a of 8 in the formats R, RR and RI; an operand b of
8; operands at 7. -/
theorem witness_StepFollowsItsPhases :
    ({ State.reset with run := false } : State).run = false ∧
    (State.reset.run = true ∧ 253 < ({ State.reset with pc := 254 } : State).pc.toNat) ∧
    (Ready (top ⟨0, 0, 0⟩) ∧ opcodeRow (top ⟨0, 0, 0⟩).params (top ⟨0, 0, 0⟩).window.ir = none) ∧
    (∀ code : Byte, WitnessR code ∧ WitnessRR code) ∧
    (∀ code : Byte, (top ⟨code, 0, 0⟩).params.opcodes.wf = true) ∧
    (Mnemonic.present (top ⟨0x45, 8, 0⟩).params .push = true ∧ OpcodeMap.standard.byte .push = 0x45 ∧
      Mnemonic.push.format ≠ .z) ∧
    (OpcodeMap.standard.byte .ldi = 0x82 ∧ Mnemonic.ldi.format ≠ .z) ∧
    (OpcodeMap.standard.byte .shr = 0xAD ∧ Mnemonic.shr.format = .rr) ∧
    ((Instr.shr 7 7).operandBytes = [7, 7].take Mnemonic.shr.format.operandCount) :=
  ⟨rfl, ⟨rfl, by decide⟩, ⟨top_ready _, by decide⟩, fun c => ⟨witnessR c, witnessRR c⟩, fun _ => OpcodeMap.standard_wf,
    by decide, by decide, by decide, by decide⟩

theorem witness_StoppedMachineStays : ({ State.reset with run := false } : State).run = false := rfl

/-- `AddressFaultExactlyAtTheTop`: below the three addresses and at them. -/
theorem witness_AddressFaultExactlyAtTheTop :
    (∀ pc ∈ ([253, 254, 255, 256] : List Pc), ({ State.reset with pc := pc } : State).Inv) ∧ State.reset.run = true ∧
    fetchDecode { State.reset with pc := 256 } = .error (.addressOutOfRange 256) := by
  refine ⟨fun pc h => ⟨?_, .inl rfl, fun e => absurd rfl e, Nat.zero_le 4, rfl⟩, by decide, by decide⟩
  revert pc; decide

theorem witness_IllegalOpcodeIgnoresOperands :
    Ready (top ⟨0xC0, 9, 9⟩) ∧ fetchDecode (top ⟨0xC0, 9, 9⟩) = .error (.illegalOpcode 0xC0) :=
  ⟨top_ready _, by decide⟩

/-- `RegisterIndexAboveSevenFaults`: operand a of 8 (of an untaken JEQ, too), operand b of 8, operands that pass. -/
theorem witness_RegisterIndexAboveSevenFaults :
    (Ready (top ⟨0x55, 8, 0⟩) ∧ opcodeRow (top ⟨0x55, 8, 0⟩).params (top ⟨0x55, 8, 0⟩).window.ir = some .jeq ∧
      Mnemonic.jeq.format ≠ .z ∧ 7 < (top ⟨0x55, 8, 0⟩).window.opa.toNat) ∧
    (Ready (top ⟨0xA4, 7, 8⟩) ∧ opcodeRow (top ⟨0xA4, 7, 8⟩).params (top ⟨0xA4, 7, 8⟩).window.ir = some .mod ∧
      Mnemonic.mod.format = .rr ∧ (top ⟨0xA4, 7, 8⟩).window.opa.toNat ≤ 7 ∧ 7 < (top ⟨0xA4, 7, 8⟩).window.opb.toNat) ∧
    (Ready (top ⟨0x01, 8, 8⟩) ∧ opcodeRow (top ⟨0x01, 8, 8⟩).params (top ⟨0x01, 8, 8⟩).window.ir = some .hlt ∧
      Mnemonic.hlt.format = .z ∧ Mnemonic.hlt.format ≠ .rr) :=
  ⟨⟨top_ready _, by decide⟩, ⟨top_ready _, by decide⟩, ⟨top_ready _, by decide⟩⟩

/-- `FaultEntryWritesRunAndErr`: each cause that fetch and decode raise. -/
theorem witness_FaultEntryWritesRunAndErr :
    State.reset.run = true ∧ fetchDecode State.reset = .error (.illegalOpcode 0) ∧
    (top ⟨0x54, 8, 0⟩).run = true ∧ fetchDecode (top ⟨0x54, 8, 0⟩) = .error (.registerIndexOutOfRange 8) ∧
    fetchDecode { State.reset with pc := 254 } = .error (.addressOutOfRange 254) := by decide

/-- `FaultsArePrecise`: a step that writes each of the four codes. -/
theorem witness_FaultsArePrecise :
    (after (at3 0 ⟨0xA4, 0, 1⟩ []) (fun t => t.err) = some 1 ∧ (at3 0 ⟨0xA4, 0, 1⟩ []).err = 0) ∧
    (after State.reset (fun t => t.err) = some 2 ∧ State.reset.err = 0) ∧
    (after (top ⟨0x54, 8, 0⟩) (fun t => t.err) = some 3 ∧ (top ⟨0x54, 8, 0⟩).err = 0) ∧
    (after { State.reset with pc := 254 } (fun t => t.err) = some 4) := by decide

/-- `RunBitIsClearedByHltOrFault`: a stopped state, and a state whose step clears `run` for each reason. -/
theorem witness_RunBitIsClearedByHltOrFault :
    (after { State.reset with run := false } (fun t => t.run) = some false) ∧
    (State.reset.run = true ∧ after State.reset (fun t => t.run) = some false) ∧
    (after (top ⟨0x01, 0, 0⟩) (fun t => t.run) = some false ∧ (top ⟨0x01, 0, 0⟩).run = true) ∧
    (after (at3 0 ⟨0xA4, 0, 1⟩ []) (fun t => t.run) = some false) ∧
    (after (at3 0 ⟨0xA3, 0, 1⟩ []) (fun t => t.run) = some false) := by decide

/-- The whole-machine statements have one hypothesis, that the step answers: it does, for an instruction of each kind. -/
theorem witness_step_answers :
    (after (top ⟨0xA7, 0, 0⟩) (fun t => t.fl) = some 0b001) ∧
    (after (top ⟨0x45, 0, 0⟩) (fun t => t.sp) = some 0xF3) ∧
    (after (top ⟨0x50, 0, 0⟩) (fun t => t.mem.read 0xF3) = some 0xFF) ∧
    (after (top ⟨0x47, 7, 0⟩) (fun t => t.out) = some [0xF4]) := by decide

/-- `OnlyPrnAppendsToOut`: a step that runs PRN, a stopped one, and one that runs another instruction. -/
theorem witness_OnlyPrnAppendsToOut :
    ((top ⟨0x47, 7, 0⟩).run = true ∧ fetchDecode (top ⟨0x47, 7, 0⟩) = .ok (.prn 7)) ∧
    ({ State.reset with run := false } : State).run = false ∧
    (∀ a : Reg, fetchDecode (top ⟨0x11, 0, 0⟩) ≠ .ok (.prn a)) := by decide

theorem witness_OnlyEqualIsReadAndOnlyByJumps :
    (0b110 : BitVec 3).getLsbD 0 = (State.reset.fl).getLsbD 0 ∧ (∀ a : Reg, Instr.hlt ≠ .jeq a ∧ Instr.hlt ≠ .jne a) := by
  decide

theorem witness_StoredByteIsSeenByTheNextFetch :
    (Ready (at3 0 ⟨0x45, 7, 0⟩ [(7, 3)]) ∧ fetchDecode (at3 0 ⟨0x45, 7, 0⟩ [(7, 3)]) = .ok (.push 7) ∧
      after (at3 0 ⟨0x45, 7, 0⟩ [(7, 3)]) (fun t => (t.pc, t.window.ir)) = some (2, 2)) ∧
    (Ready (at3 0 ⟨0x50, 7, 0⟩ []) ∧ fetchDecode (at3 0 ⟨0x50, 7, 0⟩ []) = .ok (.call 7) ∧
      after (at3 0 ⟨0x50, 7, 0⟩ []) (fun t => (t.pc, t.window.ir)) = some (0xF3, 2)) ∧
    (Ready (at3 0 ⟨0x45, 1, 0⟩ [(1, 0x01), (7, 3)]) ∧
      fetchDecode (at3 0 ⟨0x45, 1, 0⟩ [(1, 0x01), (7, 3)]) = .ok (.push 1) ∧
      after (at3 0 ⟨0x45, 1, 0⟩ [(1, 0x01), (7, 3)]) (fun t => (t.pc, t.window.ir)) = some (2, 0x01)) ∧
    (Ready (at3 0 ⟨0x50, 1, 0⟩ [(1, 0xF3)]) ∧ fetchDecode (at3 0 ⟨0x50, 1, 0⟩ [(1, 0xF3)]) = .ok (.call 1) ∧
      after (at3 0 ⟨0x50, 1, 0⟩ [(1, 0xF3)]) (fun t => (t.pc, t.window.ir)) = some (0xF3, 2)) :=
  ⟨⟨⟨rfl, by decide⟩, by decide, by decide⟩, ⟨⟨rfl, by decide⟩, by decide, by decide⟩,
    ⟨⟨rfl, by decide⟩, by decide, by decide⟩, ⟨⟨rfl, by decide⟩, by decide, by decide⟩⟩

/-- `StepKeepsInvariant`: the reset state meets the invariant, and so does a faulted state at pc 256. -/
theorem witness_StepKeepsInvariant :
    State.reset.Inv ∧ ({ State.reset with pc := 256, run := false, err := 4, fl := 0b100, mem := [(255, 1)] } : State).Inv :=
  ⟨⟨by decide, .inl rfl, by decide, by decide, by decide⟩, ⟨by decide, .inr (.inr (.inr rfl)), by decide, by decide, by decide⟩⟩

theorem witness_ResetAndLaunchMeetInvariant : State.reset.mem.wf = true ∧ Memory.wf [(0, 1), (255, 0xFF)] = true := by decide

/-- The launch of an image of zeros is the reset state, whose unlisted memory reads the same. -/
theorem launch_zeros : launch Params.standard (Vector.replicate 256 0) = State.reset := by decide +kernel

/-- `EveryReachableStateIsLegal`: no step, and two steps that stop at the illegal byte 0 of an empty image. -/
theorem witness_EveryReachableStateIsLegal :
    Host.Core.run Sys2Proof.core 0 (launch Params.standard (Vector.replicate 256 0)) =
      .next (launch Params.standard (Vector.replicate 256 0)) ∧
    ∃ t : State, Host.Core.run Sys2Proof.core 2 (launch Params.standard (Vector.replicate 256 0)) = .next t ∧
      t.run = false ∧ t.err = 2 := by
  rw [launch_zeros]
  exact ⟨rfl, _, rfl, rfl, rfl⟩

theorem witness_memory_bounds : (255 ≤ 255 ∧ 255 < 256) ∧ (0xFF : Byte).toNat = 255 := by decide

theorem witness_CanonicalMemoryIsUnique :
    Memory.wf [(0, 1), (255, 2)] = true ∧ (Memory.write (Memory.write [] 255 2) 0 1 = [(0, 1), (255, 2)]) ∧ 255 < 256 := by
  decide

theorem witness_WarmResetIsALaunchOfTheSameMemory :
    State.reset.mem.wf = true ∧
    (∀ n : Fin 256, (Vector.replicate 256 (0 : Byte))[n] = State.reset.mem.read n.val) :=
  ⟨rfl, fun n => by simp; rfl⟩

theorem witness_ProgramImageIsZeroFilled :
    (imageOfProgram [0x01]).isSome = true ∧ (imageOfProgram (List.replicate 256 0x01)).isSome = true ∧
    imageOfProgram (List.replicate 257 0x01) = none := by
  refine ⟨?_, ?_, ?_⟩ <;> decide +kernel

theorem witness_HltStopsCleanly :
    Ready (top ⟨0x01, 0, 0⟩) ∧ StandardMap (top ⟨0x01, 0, 0⟩) ∧ (top ⟨0x01, 0, 0⟩).window.ir = 0x01 ∧
    (top ⟨0x01, 0, 0⟩).err = 0 := ⟨top_ready _, rfl, by decide, by decide⟩

theorem witness_LdiLoadsItsLiteral :
    WitnessR 0x82 ∧ (top ⟨0x82, 7, 0⟩).pc = 253 ∧ (top ⟨0x82, 7, 0⟩).run = true ∧ (7 : Reg) = 7 :=
  ⟨witnessR _, rfl, rfl, rfl⟩

theorem witness_PrnEmitsTheRegister : WitnessR 0x47 := witnessR _
theorem witness_AddSubMulWrapModulo256 : WitnessRR 0xA0 ∧ WitnessRR 0xA1 ∧ WitnessRR 0xA2 :=
  ⟨witnessRR _, witnessRR _, witnessRR _⟩
theorem witness_AndOrAreBitwise : WitnessRR 0xA8 ∧ WitnessRR 0xAA := ⟨witnessRR _, witnessRR _⟩
theorem witness_XorIsBitwise : WitnessRR 0xAB := witnessRR _
theorem witness_NotComplementsEightBits : WitnessR 0x69 := witnessR _
theorem witness_ShlShiftsLeft : WitnessRR 0xAC ∧ 8 ≤ ((State.reset.setReg 1 8).reg 1).toNat := ⟨witnessRR _, by decide⟩
theorem witness_ShrShiftsRightLogically :
    WitnessRR 0xAD ∧ 8 ≤ ((State.reset.setReg 1 8).reg 1).toNat ∧ 1 ≤ ((State.reset.setReg 1 1).reg 1).toNat :=
  ⟨witnessRR _, by decide, by decide⟩
/-- `AluResultsDependOnOperandsOnly`: its list is not empty, and counts below 8 and of 8 exist. -/
theorem witness_AluResultsDependOnOperandsOnly :
    (0 : Nat) < ([Instr.add, Instr.sub, Instr.mul, Instr.and, Instr.or, Instr.xor, Instr.shl, Instr.shr] :
      List (Reg → Reg → Instr)).length ∧ (7 : Byte).toNat < 8 ∧ 8 ≤ (8 : Byte).toNat := by decide
theorem witness_CmpSetsExactlyOneFlag : WitnessRR 0xA7 := witnessRR _
theorem witness_ModGivesTheRemainder : WitnessRR 0xA4 ∧ (State.reset.setReg 1 1).reg 1 ≠ 0 := ⟨witnessRR _, by decide⟩

/-- `DivGivesTheQuotient`: the byte without `HAS_DIV`, each clause with it, and a divisor of 1. -/
theorem witness_DivGivesTheQuotient :
    (Ready { top ⟨0xA3, 0, 0⟩ with params := Params.standard } ∧ Params.standard.hasDiv = false ∧
      ({ top ⟨0xA3, 0, 0⟩ with params := Params.standard } : State).window.ir = 0xA3) ∧
    (WitnessRR 0xA3 ∧ ∀ a b : Byte, (top ⟨0xA3, a, b⟩).params.hasDiv = true) ∧
    (State.reset.setReg 1 1).reg 1 ≠ 0 :=
  ⟨⟨top_ready ⟨0xA3, 0, 0⟩, rfl, by decide⟩, ⟨witnessRR _, fun _ _ => rfl⟩, by decide⟩

theorem witness_ZeroDivisorStopsTheMachine : State.reset.reg 1 = 0 := by decide
theorem witness_PushStoresBelowTheTop : WitnessR 0x45 := witnessR _
theorem witness_PopLoadsTheTop : WitnessR 0x46 ∧ (6 : Reg) ≠ 7 ∧ (7 : Reg) = 7 := ⟨witnessR _, by decide, rfl⟩

/-- `PushThenPopRestores`: the state after the push is one that left pointer and cell alone. -/
theorem witness_PushThenPopRestores :
    (6 : Reg) ≠ 7 ∧ ∃ t, exec (.push 6) State.reset = .next t ∧ t.sp = t.sp ∧ t.mem.read t.sp.toNat = t.mem.read t.sp.toNat :=
  ⟨by decide, _, rfl, rfl, rfl⟩

theorem witness_CallPushesTheNextAddress : WitnessR 0x50 ∧ (top ⟨0x50, 7, 0⟩).pc.toNat ≤ 253 := ⟨witnessR _, by decide⟩
theorem witness_RetJumpsToTheTopOfStack :
    Ready (top ⟨0x11, 0xFF, 0xFF⟩) ∧ StandardMap (top ⟨0x11, 0xFF, 0xFF⟩) ∧ (top ⟨0x11, 0xFF, 0xFF⟩).window.ir = 0x11 :=
  ⟨top_ready _, rfl, by decide⟩
theorem witness_JmpJumpsToTheRegister : WitnessR 0x54 ∧ (State.reset.reg 0).toNat = State.reset.pc.toNat :=
  ⟨witnessR _, by decide⟩
theorem witness_ConditionalJumpsTestEqual :
    WitnessR 0x55 ∧ WitnessR 0x56 ∧ ({ State.reset with fl := 0b001 } : State).flagE = true ∧ State.reset.flagE = false :=
  ⟨witnessR _, witnessR _, by decide, by decide⟩
theorem witness_CompareThenJump : State.reset.reg 0 = State.reset.reg 1 ∧ State.reset.reg 0 ≠ State.reset.reg 7 := by decide

/-- `CallThenRetResumes`: the highest call site, and a routine that does nothing. -/
theorem witness_CallThenRetResumes :
    (top ⟨0x50, 0, 0⟩).pc.toNat ≤ 253 ∧
    ∃ t, exec (.call 0) (top ⟨0x50, 0, 0⟩) = .next t ∧ t.sp = t.sp ∧ t.mem.read t.sp.toNat = t.mem.read t.sp.toNat :=
  ⟨by decide, _, rfl, rfl, rfl⟩

end Sys2Proof.Tests
end

section
/-! PROOFS of the family 10_state.md, `run` and `out` (R18, R21). The one fact both statements turn on is that no instruction
reads `run` or `out`: with any values in them, `exec` gives the same state, clears `run` or keeps it, and appends the same
bytes to `out` (`exec_ignoresRunAndOut`). -/

namespace Sys2Proof.Machine

/-! ## Reset -/

/-- The loads of the load port change memory only. -/
theorem foldl_loadCell (s : State) (loads : List (Byte × Byte)) :
    loads.foldl (fun t l => t.loadCell l.1 l.2) s =
      { s with mem := loads.foldl (fun m l => m.write l.1.toNat l.2) s.mem } := by
  induction loads generalizing s with
  | nil => rfl
  | cons l loads ih => exact ih (s.loadCell l.1 l.2)

/-- A reset pulse leaves the reset registers, and memory with the loads written oldest first (70_reset_and_hazards.md R140). -/
theorem resetPulse_eq (s : State) (loads : List (Byte × Byte)) :
    s.resetPulse loads =
      { s.resetRegisters with mem := loads.foldl (fun m l => m.write l.1.toNat l.2) s.mem } :=
  foldl_loadCell s.resetRegisters loads

@[simp] theorem resetPulse_run (s : State) (loads : List (Byte × Byte)) : (s.resetPulse loads).run = true := by
  rw [resetPulse_eq, resetRegisters_run]

@[simp] theorem resetPulse_out (s : State) (loads : List (Byte × Byte)) : (s.resetPulse loads).out = [] := by
  rw [resetPulse_eq, resetRegisters_out]

/-! ## No instruction reads `run` or `out` -/

/-- `i` reads neither `run` nor `out` of `s`: whatever they hold, the other fields come out as in one state `t`, `run` is
kept or cleared, and the same bytes are appended to `out`. -/
def IgnoresRunAndOut (i : Instr) (s : State) : Prop :=
  ∃ (t : State) (halts : Bool) (emitted : List Byte), ∀ (b : Bool) (o : List Byte),
    exec i { s with run := b, out := o } = .next { t with run := b && !halts, out := o ++ emitted }

variable {i : Instr} {s t : State}

/-- An instruction that passes `run` and `out` on as they are. -/
theorem ignoresRunAndOut_of_kept {g : State → State} (hexec : ∀ s : State, exec i s = .next (g s))
    (hkept : ∀ (b : Bool) (o : List Byte), g { s with run := b, out := o } = { g s with run := b, out := o }) :
    IgnoresRunAndOut i s :=
  ⟨g s, false, [], fun b o => by rw [Bool.not_false, Bool.and_true, List.append_nil, hexec, hkept]⟩

/-- A zero divisor and a quotient are told from the registers alone: `run` is cleared for the one, kept for the other. -/
theorem ignoresRunAndOut_of_divide {f : Byte → Byte → Byte} {a b : Reg}
    (hexec : ∀ s : State, exec i s =
      .next (if s.reg b = 0 then raise (.divideByZero s.pc) s else aluWriteBack f a b s)) :
    IgnoresRunAndOut i s := by
  have hreg (r : Bool) (o : List Byte) : ({ s with run := r, out := o } : State).reg b = s.reg b := rfl
  by_cases hb : s.reg b = 0
  · exact ⟨raise (.divideByZero s.pc) s, true, [], fun r o => by
      rw [Bool.not_true, Bool.and_false, List.append_nil, hexec, hreg, if_pos hb]
      rfl⟩
  · exact ⟨aluWriteBack f a b s, false, [], fun r o => by
      rw [Bool.not_false, Bool.and_true, List.append_nil, hexec, hreg, if_neg hb]
      rfl⟩

/-- Both ways out of a conditional jump change `pc` alone. -/
theorem branch_setRunAndOut (taken : Bool) (a : Reg) (s : State) (b : Bool) (o : List Byte) :
    branch taken a { s with run := b, out := o } = { branch taken a s with run := b, out := o } := by
  cases taken with
  | true => rfl
  | false => rfl

/-- No instruction reads `run` (10_state.md R18) or `out` (R21). -/
theorem exec_ignoresRunAndOut (i : Instr) (s : State) : IgnoresRunAndOut i s := by
  cases i with
  | hlt => exact ⟨s, true, [], fun b o => by simp [exec_hlt]⟩
  | prn a => exact ⟨s.advance 2, false, [s.reg a], fun b o => by rw [Bool.not_false, Bool.and_true]; rfl⟩
  | jeq a => exact ignoresRunAndOut_of_kept (exec_jeq · a) (branch_setRunAndOut s.flagE a s)
  | jne a => exact ignoresRunAndOut_of_kept (exec_jne · a) (branch_setRunAndOut (!s.flagE) a s)
  | div a b => exact ignoresRunAndOut_of_divide (exec_div · a b)
  | mod a b => exact ignoresRunAndOut_of_divide (exec_mod · a b)
  | push a => exact ignoresRunAndOut_of_kept (exec_push · a) fun _ _ => rfl
  | pop a => exact ignoresRunAndOut_of_kept (exec_pop · a) fun _ _ => rfl
  | call a => exact ignoresRunAndOut_of_kept (exec_call · a) fun _ _ => rfl
  | ret => exact ignoresRunAndOut_of_kept exec_ret fun _ _ => rfl
  | _ => exact ignoresRunAndOut_of_kept (fun _ => rfl) fun _ _ => rfl

/-! ## The step -/

/-- A running machine executes what it fetched and decoded. -/
theorem step_eq_exec (hr : s.run = true) (hf : fetchDecode s = .ok i) : step s = exec i s := by
  rw [step_running hr, hf]

/-- When a step of a running machine ends with `run` cleared (10_state.md R18). -/
theorem step_clears_run_iff (hr : s.run = true) (h : step s = .next t) :
    t.run = false ↔
      fetchDecode s = .ok .hlt ∨ (∃ c : Cause, fetchDecode s = .error c ∧ t = raise c s) ∨
      (∃ a b : Reg, (fetchDecode s = .ok (.mod a b) ∨ fetchDecode s = .ok (.div a b)) ∧ s.reg b = 0 ∧
        t = raise (.divideByZero s.pc) s) := by
  constructor
  · intro ht
    cases hf : fetchDecode s with
    | error c =>
      rw [step_fault hr hf] at h
      cases h
      exact .inr (.inl ⟨c, rfl, rfl⟩)
    | ok i =>
      rw [step_eq_exec hr hf] at h
      rcases exec_run h with hkept | rfl | ⟨a, b, hi, hb, hraise⟩
      · simp [hkept, hr] at ht
      · exact .inl rfl
      · exact .inr (.inr ⟨a, b, by simpa using hi, hb, hraise⟩)
  · rintro (hf | ⟨c, -, rfl⟩ | ⟨a, b, -, -, rfl⟩)
    · rw [step_eq_exec hr hf, exec_hlt] at h
      cases h
      rfl
    · exact raise_run s c
    · exact raise_run s _

/-- A step that does not run PRN leaves `out` alone (10_state.md R21). -/
theorem step_out_of_not_prn (hprn : s.run = false ∨ ∀ a : Reg, fetchDecode s ≠ .ok (.prn a))
    (h : step s = .next t) : t.out = s.out := by
  rcases step_cases s with ⟨-, e⟩ | ⟨-, c, -, e⟩ | ⟨hr, hpc, i, hd, e⟩ <;> rw [e] at h
  · cases h; rfl
  · cases h; rfl
  · rcases exec_out h with hkept | ⟨a, rfl, -⟩
    · exact hkept
    · have hrun : s.run ≠ false := by simp [hr]
      exact absurd (fetchDecode_ok hpc hd) (hprn.resolve_left hrun a)

/-- A step does not read `out`: it appends the same bytes to whatever is there (10_state.md R21). -/
theorem step_ignores_out (s : State) :
    ∃ (t : State) (emitted : List Byte), ∀ o : List Byte,
      step { s with out := o } = .next { t with out := o ++ emitted } := by
  rcases step_cases s with ⟨hr, -⟩ | ⟨hr, c, hf, -⟩ | ⟨hr, hpc, i, hd, -⟩
  · exact ⟨s, [], fun o => by simpa using step_stopped (s := { s with out := o }) hr⟩
  · exact ⟨raise c s, [], fun o => by simpa [raise] using step_fault (s := { s with out := o }) hr hf⟩
  · obtain ⟨t, halts, emitted, h⟩ := exec_ignoresRunAndOut i s
    exact ⟨{ t with run := s.run && !halts }, emitted, fun o =>
      (step_exec (s := { s with out := o }) hr hpc hd).trans (h s.run o)⟩

/-! ## The statements -/

/-- Settles O15: a step's `run` by the ways through the step, and that no instruction reads it by `exec_ignoresRunAndOut`. -/
theorem runBitIsClearedByHltOrFault : Obligations.RunBitIsClearedByHltOrFault := by
  refine ⟨rfl, resetPulse_run, fun s t h => ⟨fun hr => ?_, fun hr => step_clears_run_iff hr h⟩, fun i s b => ?_⟩
  · rw [step_stopped hr] at h
    cases h
    rfl
  · obtain ⟨t, halts, emitted, hexec⟩ := exec_ignoresRunAndOut i s
    exact ⟨_, _, hexec s.run s.out, hexec b s.out, rfl⟩

/-- Settles O19: only PRN's step appends, and a step with another `out` appends the same bytes by `step_ignores_out`. -/
theorem onlyPrnAppendsToOut : Obligations.OnlyPrnAppendsToOut := by
  refine ⟨fun s t h => ⟨fun a hr hf => ?_, fun hprn => step_out_of_not_prn hprn h⟩, fun s t o h => ?_, resetPulse_out⟩
  · rw [step_eq_exec hr hf, exec_prn] at h
    cases h
    rfl
  · obtain ⟨t', emitted, hstep⟩ := step_ignores_out s
    cases h.symm.trans (hstep s.out)
    exact ⟨_, hstep o, rfl, by simp [prnEvents]⟩

end Sys2Proof.Machine
end

section
/-! PROOFS of the family 20_memory.md, the access primitives (R31, R32). Both compare the whole address with 256 before they
touch a cell; the four lemmas below give the two outcomes of each in the spec's bounds, `addr ≤ 255` and `255 < addr`. -/

namespace Sys2Proof.Machine

open Sys2Proof.Claims

section

variable (s : State) {addr : Nat}

/-! ## The access primitives in range and above -/

theorem memRead_of_le (h : addr ≤ 255) : memRead s addr = .ok (s.mem.read addr) := by
  rw [memRead_eq, if_pos (by omega)]

/-- The cause carries the address as it was given, not reduced modulo 256. -/
theorem memRead_of_gt (h : 255 < addr) : memRead s addr = .error (.addressOutOfRange addr) := by
  rw [memRead_eq, if_neg (by omega)]

theorem memWrite_of_le (v : Byte) (h : addr ≤ 255) :
    memWrite s addr v = .ok { s with mem := s.mem.write addr v } := by
  rw [memWrite_eq, if_pos (by omega)]

theorem memWrite_of_gt (v : Byte) (h : 255 < addr) : memWrite s addr v = .error (.addressOutOfRange addr) := by
  rw [memWrite_eq, if_neg (by omega)]

/-! ## Which cells a memory write and a fault leave alone -/

theorem sameMemoryBut_write (addr : Nat) (v : Byte) :
    SameMemoryBut addr s { s with mem := s.mem.write addr v } :=
  fun _ hne => s.mem.read_write_ne v hne

theorem sameMemory_raise (c : Cause) : SameMemory s (raise c s) :=
  fun cell => by rw [raise_mem]

end

/-! ## The statements -/

/-- Settles O26: in range the new state is the old one with `mem` written, so the cells are `Memory.read_write_self` and
`sameMemoryBut_write` and every other field is the same by definition; above, no state is built and the fault keeps memory. -/
theorem memWriteChangesOneCell : Obligations.MemWriteChangesOneCell := by
  refine fun s addr v => ⟨fun hin => ?inRange, fun hout => ?outOfRange, fun b => ?byteAddress⟩
  case inRange =>
    exact ⟨_, memWrite_of_le s v hin, s.mem.read_write_self addr v, sameMemoryBut_write s addr v,
      fun _ => rfl, rfl, rfl, rfl, rfl, rfl, rfl⟩
  case outOfRange => exact ⟨memWrite_of_gt s v hout, sameMemory_raise s _⟩
  case byteAddress => exact ⟨_, memWrite_byte s b v⟩

/-- Settles O25: the two outcomes of the bounds check, `memRead_of_le` and `memRead_of_gt`. -/
theorem memReadIsBoundsChecked : Obligations.MemReadIsBoundsChecked :=
  fun s _ => ⟨memRead_of_le s, memRead_of_gt s⟩

end Sys2Proof.Machine
end

section
/-! PROOFS of the family 60_exceptions.md, the illegal opcode (R122). The decoder matches the opcode byte alone before it looks
at an operand (`decode_illegal`), so whether it raises `IllegalOpcode` is a fact about that byte and not about the window. -/

namespace Sys2Proof.Machine

open Sys2Proof.Claims

/-- With the window in range, fetch and decode raise `IllegalOpcode` exactly when the byte at `pc` matches no row (R122). -/
theorem fetchDecode_illegalOpcode_iff {s : State} (hpc : s.pc.toNat ≤ 253) :
    fetchDecode s = .error (.illegalOpcode s.window.ir) ↔ opcodeRow s.params s.window.ir = none := by
  rw [fetchDecode_eq, if_neg (Nat.not_lt.mpr hpc), decode_illegal, and_iff_left rfl]

/-- Settles O11: no row matches the byte at `pc`, and `decode_illegal` gives the same answer for any operand bytes after it. -/
theorem illegalOpcodeIgnoresOperands : Obligations.IllegalOpcodeIgnoresOperands := by
  rintro s ⟨hrun, hpc⟩
  have hraised := fetchDecode_illegalOpcode_iff hpc
  refine ⟨opcodeRow_none.symm.trans hraised.symm, fun hfault => ⟨step_fault hrun hfault, fun opa opb => ?_⟩⟩
  exact decode_illegal.mpr ⟨hraised.mp hfault, rfl⟩

end Sys2Proof.Machine
end

section
/-! PROOFS of the family 70_reset_and_hazards.md, termination (R149). That a step answers comes down to `exec_next`, runs of
every length follow one step at a time, and a run that never shows `run` cleared has it set at every length. -/

namespace Sys2Proof.Machine

/-- Each of the ways through the step ends in a next state: `Step` is total (50_execution_engine.md R101). -/
theorem step_next (s : State) : ∃ t : State, step s = .next t := by
  rcases step_cases s with ⟨-, hstopped⟩ | ⟨-, c, -, hfault⟩ | ⟨-, -, i, -, hexec⟩
  · exact ⟨s, hstopped⟩
  · exact ⟨raise c s, hfault⟩
  · rw [hexec]
    exact exec_next i s

/-- No run gets stuck, whatever its length. -/
theorem run_next (k : Nat) (s : State) : ∃ t : State, Host.Core.run Sys2Proof.core k s = .next t := by
  induction k generalizing s with
  | zero => exact ⟨s, run_zero s⟩
  | succ k ih =>
    obtain ⟨u, hstep⟩ := step_next s
    rw [run_succ k hstep]
    exact ih u

/-- Settles O8: steps and runs answer by `step_next` and `run_next`; when no run from `s` reaches `run = 0`, the state that
`run_next` gives at each length is still running. -/
theorem everyRunGoesOn : Obligations.EveryRunGoesOn := by
  refine ⟨step_next, run_next, fun s => or_iff_not_imp_left.mpr fun hnever k => ?_⟩
  obtain ⟨t, hrun⟩ := run_next k s
  have hrunning : t.run ≠ false := fun hstopped => hnever ⟨k, t, hrun, hstopped⟩
  exact ⟨t, hrun, Bool.eq_true_of_not_eq_false hrunning⟩

end Sys2Proof.Machine
end

section
/-! PROOFS of the family 30_encoding.md, sections 1 to 5. The fact they turn on is `decodeOperands_ok`: a matched row decodes to
`i` exactly when `i` is of that row and its operand bytes are the window's. Decoding the encoder's bytes, encoding what was
decoded, and decoding with other parameters are read off from it. -/

namespace Sys2Proof

variable {p q : Params} {m : Mnemonic} {w : Window} {i : Instr}

/-! ## What a matched row decodes to -/

/-- What the operand check answers was read from the window's operand bytes, with nothing masked (30_encoding.md R49). -/
theorem operandBytes_of_decodeOperands (h : m.decodeOperands w = .ok i) :
    i.operandBytes = [w.opa, w.opb].take m.format.operandCount := by
  cases m with
  | hlt | ret => cases h; rfl
  | ldi =>
    obtain ⟨a, ha, rfl⟩ := decodeRI_ok.mp h
    rw [ha]
    rfl
  | push | pop | prn | call | jmp | jeq | jne | not =>
    obtain ⟨a, ha, rfl⟩ := decodeR_ok.mp h
    rw [ha]
    rfl
  | add | sub | mul | div | mod | cmp | and | or | xor | shl | shr =>
    obtain ⟨a, b, ha, hb, rfl⟩ := decodeRR_ok.mp h
    rw [ha, hb]
    rfl

/-- An instruction whose operand bytes are the window's passes the operand check of its row. -/
theorem decodeOperands_of_operandBytes
    (h : i.operandBytes = [w.opa, w.opb].take i.mnemonic.format.operandCount) :
    i.mnemonic.decodeOperands w = .ok i := by
  cases i with
  | hlt | ret => rfl
  | ldi a imm =>
    obtain ⟨ha, hrest⟩ := List.cons.inj h
    obtain ⟨rfl, -⟩ := List.cons.inj hrest
    exact decodeRI_ok.mpr ⟨a, ha.symm, rfl⟩
  | push a | pop a | prn a | call a | jmp a | jeq a | jne a | not a =>
    obtain ⟨ha, -⟩ := List.cons.inj h
    exact decodeR_ok.mpr ⟨a, ha.symm, rfl⟩
  | add a b | sub a b | mul a b | div a b | mod a b | cmp a b | and a b | or a b | xor a b | shl a b | shr a b =>
    obtain ⟨ha, hrest⟩ := List.cons.inj h
    obtain ⟨hb, -⟩ := List.cons.inj hrest
    exact decodeRR_ok.mpr ⟨a, b, ha.symm, hb.symm, rfl⟩

/-- A matched row decodes to `i` exactly when `i` is of that row and its operand bytes are the window's. -/
theorem decodeOperands_ok :
    m.decodeOperands w = .ok i ↔ i.mnemonic = m ∧ i.operandBytes = [w.opa, w.opb].take m.format.operandCount := by
  constructor
  · exact fun h => ⟨decodeOperands_mnemonic h, operandBytes_of_decodeOperands h⟩
  · rintro ⟨rfl, h⟩
    exact decodeOperands_of_operandBytes h

/-- The operand bytes of an encoded instruction stand where the decoder reads them, whatever follows. -/
theorem operandBytes_ofBytes_encode (p : Params) (i : Instr) (tail : List Byte) :
    i.operandBytes = [(Window.ofBytes (encode p i ++ tail)).opa, (Window.ofBytes (encode p i ++ tail)).opb].take
      i.mnemonic.format.operandCount := by
  cases i <;> rfl

/-! ## The optional row -/

/-- DIV is the one row that a machine may lack (D3). -/
theorem present_iff : m.present p = true ↔ (m = .div → p.hasDiv = true) := by
  cases m <;> simp [Mnemonic.present]

/-- With a map that gives each byte to at most one row, an instruction that decodes with some parameters decodes with all
others that have the same map and the instruction. -/
theorem decode_of_same_map (hwf : q.opcodes.wf = true) (hmap : p.opcodes = q.opcodes) (hi : i.wellFormed q = true)
    (h : decode p w = .ok i) : decode q w = .ok i := by
  obtain ⟨m, hrow, hops⟩ := decode_ok.mp h
  obtain ⟨rfl, -⟩ := decodeOperands_ok.mp hops
  have hbyte : q.opcodes.byte i.mnemonic = w.ir := by rw [← hmap, (opcodeRow_some hrow).2]
  exact decode_ok.mpr ⟨i.mnemonic, hbyte ▸ opcodeRow_byte hwf hi, hops⟩

/-- The bytes of the spec's table that are opcodes on every machine: those of all rows but DIV's (30_encoding.md R51, D3). -/
def alwaysOpcodes : List Byte :=
  [0x01, 0x11, 0x45, 0x46, 0x47, 0x50, 0x54, 0x55, 0x56, 0x69, 0x82, 0xA0, 0xA1, 0xA2, 0xA4, 0xA7, 0xA8, 0xAA,
    0xAB, 0xAC, 0xAD]

theorem alwaysOpcodes_eq :
    alwaysOpcodes = (Mnemonic.all.filter fun m => m ≠ .div).map OpcodeMap.standard.byte := by decide

theorem mem_alwaysOpcodes {ir : Byte} : ir ∈ alwaysOpcodes ↔ ∃ m : Mnemonic, m ≠ .div ∧ OpcodeMap.standard.byte m = ir := by
  simp [alwaysOpcodes_eq, Mnemonic.mem_all]

/-! ## The statements -/

/-- Settles O1: the opcode byte selects the instruction's row by `opcodeRow_byte`, and the row's operand check finds the
instruction's operand bytes in their places (`decodeOperands_ok`). -/
theorem decodeInvertsEncode : Obligations.DecodeInvertsEncode := by
  intro p hwf i hi tail
  exact decode_ok.mpr ⟨i.mnemonic, opcodeRow_byte hwf hi, decodeOperands_ok.mpr ⟨rfl, operandBytes_ofBytes_encode p i tail⟩⟩

/-- Settles O2: the row that was matched gives the first byte, `decodeOperands_ok` the others. -/
theorem decodedInstructionReencodes : Obligations.DecodedInstructionReencodes := by
  intro p w i h
  obtain ⟨m, hrow, hops⟩ := decode_ok.mp h
  obtain ⟨hpresent, hbyte⟩ := opcodeRow_some hrow
  obtain ⟨rfl, hoperands⟩ := decodeOperands_ok.mp hops
  refine ⟨hpresent, ?_⟩
  rw [encode, hbyte, hoperands]
  rfl

/-- Settles O3: each window begins with the bytes that `encode` gives, so the decoder inverts them by `decodeInvertsEncode`. -/
theorem standardWordsDecode : Obligations.StandardWordsDecode := by
  have hstandard := decodeInvertsEncode Params.standard OpcodeMap.standard_wf
  refine ⟨fun opa opb => ?_, fun opb => ?_, fun opb => ?_, ?_, fun opb => ?_, ?_⟩
  · exact hstandard .hlt rfl [opa, opb]
  · exact hstandard (.prn 7) rfl [opb]
  · exact hstandard (.ldi 3 opb) rfl []
  · exact hstandard (.shl 1 6) rfl []
  · exact hstandard (.call 2) rfl [opb]
  · exact decodeInvertsEncode Params.table OpcodeMap.standard_wf (.div 4 5) rfl []

/-- Settles O4: no row is matched exactly when the byte is no row's of `alwaysOpcodes`, and not DIV's while `HAS_DIV` is on. -/
theorem otherBytesAreIllegal : Obligations.OtherBytesAreIllegal := by
  intro hasDiv w
  rw [decode_illegal, and_iff_left rfl, opcodeRow_none]
  change _ ↔ w.ir ∉ alwaysOpcodes ∧ _
  rw [mem_alwaysOpcodes]
  constructor
  · intro hnone
    refine ⟨fun ⟨m, hm, hbyte⟩ => hnone m (present_iff.mpr fun hdiv => absurd hdiv hm) hbyte, fun hir => ?_⟩
    exact Bool.eq_false_of_not_eq_true fun hon => hnone .div hon hir.symm
  · rintro ⟨hothers, hdiv⟩ m hpresent hbyte
    by_cases hm : m = .div
    · subst hm
      have hon : hasDiv = true := present_iff.mp hpresent rfl
      exact absurd (hdiv hbyte.symm) (by simp [hon])
    · exact hothers ⟨m, hm, hbyte⟩

end Sys2Proof

namespace Sys2Proof.Machine

open Sys2Proof.Claims

/-- Settles O5: placing the word turns `HAS_DIV` on if the word is DIV's, so the instruction exists on the new machine, whose
map is the table's (`decode_of_same_map`), and the fetch finds the word by `window_placeWindow`. -/
theorem placedTableWordRuns : Obligations.PlacedTableWordRuns := by
  intro s nbits word i hpc hmap hword
  have htable : decode Params.table (tableWindow nbits word) = .ok i := by
    unfold decodeTableWord at hword
    split at hword <;> simp_all
  obtain ⟨m, hrow, hops⟩ := decode_ok.mp htable
  obtain ⟨rfl, -⟩ := decodeOperands_ok.mp hops
  have hbyte := (opcodeRow_some hrow).2
  have hwf : (s.withFetchWord nbits word).params.opcodes.wf = true := by
    rw [show (s.withFetchWord nbits word).params.opcodes = OpcodeMap.standard from hmap]
    exact OpcodeMap.standard_wf
  have hexists : i.wellFormed (s.withFetchWord nbits word).params = true := by
    refine present_iff.mpr fun hdiv => ?_
    rw [hdiv] at hbyte
    have hir : (tableWindow nbits word).ir = s.params.opcodes.div := by rw [hmap]; exact hbyte.symm
    simp [State.withFetchWord, State.placeWindow, hir]
  refine step_exec rfl hpc ?_
  rw [State.withFetchWord, window_placeWindow s _ hpc]
  exact decode_of_same_map hwf hmap.symm hexists htable

end Sys2Proof.Machine
end

section
/-! PROOFS of the families 30_encoding.md section 1 (R46) and 10_state.md section 9 (R25). Both rest on one fact about `pc`
over all instructions (`exec_pc`): a machine that goes on has its `pc` at the next instruction, or at an 8-bit target and then
the instruction is one of those that set `pc`. -/

namespace Sys2Proof.Machine

open Sys2Proof.Claims

variable {i : Instr} {s t : State}

/-! ## Where an instruction leaves `pc` -/

/-- What `exec` can do to `pc`: keep it on a machine it stops, move it to the next instruction, or jump (50_execution_engine.md
R113; 43_control_transfer.md R90). -/
theorem exec_pc (h : exec i s = .next t) :
    (t.run = false ∧ t.pc = s.pc) ∨ t.pc = s.pc + BitVec.ofNat 9 i.length ∨
      (i.mnemonic.setsPc = true ∧ ∃ target : Byte, t.pc = target.zeroExtend 9) := by
  cases i with
  | hlt => cases h; exact .inl ⟨rfl, rfl⟩
  | ret => rw [exec_ret] at h; cases h; exact .inr (.inr ⟨rfl, _, rfl⟩)
  | call a => rw [exec_call] at h; cases h; exact .inr (.inr ⟨rfl, _, rfl⟩)
  | jmp a => cases h; exact .inr (.inr ⟨rfl, _, rfl⟩)
  | jeq a =>
    rw [exec_jeq] at h
    cases hE : s.flagE <;> rw [hE] at h <;> cases h
    · exact .inr (.inl rfl)
    · exact .inr (.inr ⟨rfl, _, rfl⟩)
  | jne a =>
    rw [exec_jne] at h
    cases hE : s.flagE <;> rw [hE] at h <;> cases h
    · exact .inr (.inr ⟨rfl, _, rfl⟩)
    · exact .inr (.inl rfl)
  | div a b =>
    rw [exec_div] at h
    split at h <;> cases h
    · exact .inl ⟨rfl, rfl⟩
    · exact .inr (.inl rfl)
  | mod a b =>
    rw [exec_mod] at h
    split at h <;> cases h
    · exact .inl ⟨rfl, rfl⟩
    · exact .inr (.inl rfl)
  | push a => rw [exec_push] at h; cases h; exact .inr (.inl rfl)
  | pop a => rw [exec_pop] at h; cases h; exact .inr (.inl rfl)
  | _ => cases h; exact .inr (.inl rfl)

/-- An instruction that does not set `pc` goes on to the next instruction. -/
theorem exec_pc_of_not_setsPc (h : exec i s = .next t) (hi : i.mnemonic.setsPc = false) (hrun : t.run = true) :
    t.pc = s.pc + BitVec.ofNat 9 i.length := by
  rcases exec_pc h with ⟨hstopped, -⟩ | hnext | ⟨hsets, -⟩
  · simp [hstopped] at hrun
  · exact hnext
  · simp [hi] at hsets

/-- Every instruction that sets `pc` can send a running machine elsewhere: from the reset state, at 0, the jumps go to `x[a]`,
which is 0 or the stack pointer, and RET goes to the byte 0 on the stack; JEQ does it with Equal set. -/
theorem exec_leaves_sequence (hi : i.mnemonic.setsPc = true) :
    ∃ s t : State, exec i s = .next t ∧ t.run = true ∧ t.pc ≠ s.pc + BitVec.ofNat 9 i.length := by
  cases i with
  | ret => exact ⟨State.reset, _, exec_ret _, rfl, by decide⟩
  | call a => exact ⟨State.reset, _, exec_call _ a, rfl, by revert a; decide⟩
  | jmp a => exact ⟨State.reset, _, exec_jmp _ a, rfl, by revert a; decide⟩
  | jeq a => exact ⟨{ State.reset with fl := 0b001 }, _, exec_jeq _ a, rfl, by revert a; decide⟩
  | jne a => exact ⟨State.reset, _, exec_jne _ a, rfl, by revert a; decide⟩
  | _ => cases hi

/-! ## The ALU's instructions -/

theorem isAlu_iff_mem (m : Mnemonic) :
    m.isAlu = true ↔ m ∈ ([.add, .sub, .mul, .div, .mod, .cmp, .and, .or, .xor, .not, .shl, .shr] : List Mnemonic) := by
  cases m <;> decide

theorem setsPc_iff_mem (m : Mnemonic) :
    m.setsPc = true ↔ m ∈ ([.call, .ret, .jmp, .jeq, .jne] : List Mnemonic) := by
  cases m <;> decide

theorem setsPc_eq_false_of_isAlu {m : Mnemonic} (h : m.isAlu = true) : m.setsPc = false := by
  cases m with
  | call | ret | jmp | jeq | jne => cases h
  | _ => rfl

/-- The ALU's instructions leave memory and the output alone and do not jump. -/
theorem exec_alu (h : exec i s = .next t) (hi : i.mnemonic.isAlu = true) :
    SameMemory s t ∧ t.out = s.out ∧ (t.run = true → t.pc = s.pc + BitVec.ofNat 9 i.length) := by
  refine ⟨fun addr => ?_, ?_, exec_pc_of_not_setsPc h (setsPc_eq_false_of_isAlu hi)⟩
  · rcases exec_mem h with hkept | ⟨a, rfl, -⟩ | ⟨a, rfl, -⟩
    · rw [hkept]
    · cases hi
    · cases hi
  · rcases exec_out h with hkept | ⟨a, rfl, -⟩
    · exact hkept
    · cases hi

theorem length_operandBytes (i : Instr) : i.operandBytes.length = i.mnemonic.format.operandCount := by
  cases i <;> rfl

/-- Settles O56: the spec's table has the layout of R46 (`OpcodeMap.standard_hasLayout`), and the classes its fields name are
those of `exec_alu` and, by `exec_pc`, of the instructions that can leave the sequence. -/
theorem opcodeFieldsClassifyInstructions : Obligations.OpcodeFieldsClassifyInstructions := by
  refine ⟨fields_toNat, fun i => ?_, fun m n => OpcodeMap.identifier_injective OpcodeMap.standard_hasLayout⟩
  obtain ⟨hcount, halu, hsets⟩ := OpcodeMap.fields_eq OpcodeMap.standard_hasLayout i.mnemonic
  rw [hcount, halu, hsets]
  refine ⟨(length_operandBytes i).symm, isAlu_iff_mem _, fun hi s t h => exec_alu h hi, setsPc_iff_mem _,
    exec_leaves_sequence, ?_⟩
  rintro ⟨s, t, h, hrun, hpc⟩
  exact Bool.of_not_eq_false fun hi => hpc (exec_pc_of_not_setsPc h hi hrun)

/-! ## The invariant -/

/-- No instruction is longer than three bytes (30_encoding.md R47). -/
theorem length_le_three (i : Instr) : i.length ≤ 3 := by
  have hcount : i.mnemonic.format.operandCount ≤ 2 := by cases i.mnemonic.format <;> decide
  exact Nat.succ_le_succ hcount

/-- An instruction that executes leaves `pc` at most 256 (10_state.md R14, D5). -/
theorem exec_pc_le (hpc : s.pc.toNat ≤ 253) (h : exec i s = .next t) : t.pc.toNat ≤ 256 := by
  have hlen := length_le_three i
  rcases exec_pc h with ⟨-, hkept⟩ | hnext | ⟨-, target, hjump⟩
  · rw [hkept]
    omega
  · rw [hnext, add_pc_toNat s.pc i.length hpc hlen]
    omega
  · have := target.isLt
    rw [hjump, zeroExtend_toNat]
    omega

/-- Taking a fault keeps the invariant: `run` is cleared, the code is one of the four, the rest stays. -/
theorem inv_raise (c : Cause) (hs : s.Inv) : (raise c s).Inv where
  pc_le := hs.pc_le
  fl_legal := hs.fl_legal
  err_stopped := fun _ => rfl
  err_le := (faultCode_bounds c).2
  mem_wf := hs.mem_wf

/-- Executing on a running machine keeps the invariant, field by field from the rules of Laws/Exec.lean. -/
theorem inv_exec (hs : s.Inv) (hrun : s.run = true) (hpc : s.pc.toNat ≤ 253) (h : exec i s = .next t) : t.Inv := by
  rcases exec_err h with herr | ⟨a, b, -, -, rfl⟩
  · refine ⟨exec_pc_le hpc h, ?_, fun hne => ?_, herr ▸ hs.err_le, ?_⟩
    · rcases exec_fl h with hkept | ⟨a, b, -, hcmp⟩
      · exact hkept ▸ hs.fl_legal
      · rw [hcmp]
        rcases compareFlags_cases (s.reg a) (s.reg b) with ⟨-, e⟩ | ⟨-, e⟩ | ⟨-, e⟩ <;> rw [e] <;> decide
    · have hstopped := hs.err_stopped (herr ▸ hne)
      simp [hrun] at hstopped
    · rcases exec_mem h with hkept | ⟨a, -, hwrite⟩ | ⟨a, -, hwrite⟩
      · exact hkept ▸ hs.mem_wf
      · exact hwrite ▸ Memory.wf_write _ hs.mem_wf (s.sp - 1).isLt
      · exact hwrite ▸ Memory.wf_write _ hs.mem_wf (s.sp - 1).isLt
  · exact inv_raise _ hs

/-- Settles O22: the three ways through the step, with `inv_raise` for a fault and `inv_exec` for an instruction. -/
theorem stepKeepsInvariant : Obligations.StepKeepsInvariant := by
  intro s t hs h
  rcases step_cases s with ⟨-, e⟩ | ⟨-, c, -, e⟩ | ⟨hrun, hpc, i, -, e⟩ <;> rw [e] at h
  · cases h; exact hs
  · cases h; exact inv_raise c hs
  · exact inv_exec hs hrun hpc h

/-- The reset registers with any canonical memory and any parameters meet the invariant. -/
theorem inv_reset_with {m : Memory} (hm : m.wf = true) (p : Params) :
    State.Inv { State.reset with mem := m, params := p } where
  pc_le := Nat.zero_le 256
  fl_legal := .inl rfl
  err_stopped := fun hne => absurd rfl hne
  err_le := Nat.zero_le 4
  mem_wf := hm

theorem inv_launch (p : Params) (image : Image) : (launch p image).Inv := inv_reset_with (Memory.wf_image image) p

/-- The load port's addresses are 8 bits wide, so its writes keep the canonical form. -/
theorem wf_foldl_load (loads : List (Byte × Byte)) {m : Memory} (hm : m.wf = true) :
    (loads.foldl (fun m l => m.write l.1.toNat l.2) m).wf = true := by
  induction loads generalizing m with
  | nil => exact hm
  | cons l loads ih => exact ih (Memory.wf_write l.2 hm l.1.isLt)

/-- Settles O23: reset, launch and reset pulse all leave the reset registers beside a canonical memory. -/
theorem resetAndLaunchMeetInvariant : Obligations.ResetAndLaunchMeetInvariant := by
  refine ⟨inv_reset_with (m := []) rfl _, inv_launch, fun s loads hm => ?_⟩
  rw [resetPulse_eq]
  exact inv_reset_with (wf_foldl_load loads hm) s.params

/-! ## Every step and every run -/

/-- Settles O20: no instruction writes the parameters (`exec_params`), and no fault does. -/
theorem parametersNeverChange : Obligations.ParametersNeverChange := by
  intro s t h
  rcases step_cases s with ⟨-, e⟩ | ⟨-, c, -, e⟩ | ⟨-, -, i, -, e⟩ <;> rw [e] at h
  · cases h; rfl
  · cases h; rfl
  · exact exec_params h

/-- Settles O9, by induction on the number of steps. -/
theorem stoppedMachineStays : Obligations.StoppedMachineStays := by
  intro s hstopped k
  induction k with
  | zero => exact run_zero s
  | succ k ih => rw [run_succ k (step_stopped hstopped), ih]

/-- Settles O24: the launch state meets the invariant, every step keeps it and the parameters (`run_induct`), and a stopped
state stays. -/
theorem everyReachableStateIsLegal : Obligations.EveryReachableStateIsLegal := by
  intro p image k t h
  have hkeep : ∀ s u : State, s.Inv ∧ s.params = p → step s = .next u → u.Inv ∧ u.params = p :=
    fun s u ⟨hinv, hparams⟩ hstep => ⟨stepKeepsInvariant s u hinv hstep, (parametersNeverChange s u hstep).trans hparams⟩
  obtain ⟨hinv, hparams⟩ := run_induct hkeep k ⟨inv_launch p image, rfl⟩ h
  exact ⟨hinv, hparams, stoppedMachineStays t⟩

end Sys2Proof.Machine
end

section
/-! PROOFS of the families 50_execution_engine.md section 1 (R101, R104, R105, R107) and 60_exceptions.md sections 1 and 2 (R121,
R123, R126, R128): the step phase by phase, and its faults. -/

namespace Sys2Proof.Machine

open Sys2Proof.Claims

variable {i : Instr} {s t : State} {m : Mnemonic}

/-! ## Fetch and decode, once the opcode has matched a row -/

/-- With the window in range and a row matched, what is left of fetch and decode is the row's operand check. -/
theorem fetchDecode_row (hpc : s.pc.toNat ≤ 253) (hrow : opcodeRow s.params s.window.ir = some m) :
    fetchDecode s = m.decodeOperands s.window := by
  rw [fetchDecode_eq, if_neg (Nat.not_lt.mpr hpc), decode_row hrow]

theorem step_row_fault {c : Cause} (hs : Ready s) (hrow : opcodeRow s.params s.window.ir = some m)
    (h : m.decodeOperands s.window = .error c) : step s = .next (raise c s) :=
  step_fault hs.1 ((fetchDecode_row hs.2 hrow).trans h)

/-- A matched row's instruction is run when its operand bytes are the window's. -/
theorem step_row_exec (hs : Ready s) (hrow : opcodeRow s.params s.window.ir = some m) (hm : i.mnemonic = m)
    (h : i.operandBytes = [s.window.opa, s.window.opb].take m.format.operandCount) : step s = exec i s :=
  step_eq_exec hs.1 ((fetchDecode_row hs.2 hrow).trans (decodeOperands_ok.mpr ⟨hm, h⟩))

/-- Settles O6: `fetchDecode_ok` and `step_exec`. -/
theorem stepRunsDecodedInstruction : Obligations.StepRunsDecodedInstruction :=
  fun _ _ ⟨hrun, hpc⟩ hdecode => ⟨fetchDecode_ok hpc hdecode, step_exec hrun hpc hdecode⟩

/-- Settles O7: one clause for each phase; a row that has the byte is the row matched, since the map gives it to no other. -/
theorem stepFollowsItsPhases : Obligations.StepFollowsItsPhases := by
  refine fun s => ⟨step_stopped, step_fetchFault, fun hs hnone => ?_, fun hs hwf m hpresent hbyte => ?_⟩
  · exact step_decodeFault hs.1 hs.2 (decode_illegal.mpr ⟨opcodeRow_none.mpr hnone, rfl⟩)
  · have hrow : opcodeRow s.params s.window.ir = some m := hbyte ▸ opcodeRow_byte hwf hpresent
    exact ⟨fun hf ha => step_row_fault hs hrow (decodeOperands_opa hf ha),
      fun hf ha hb => step_row_fault hs hrow (decodeOperands_opb hf ha hb),
      fun i hm hops => step_row_exec hs hrow hm hops⟩

/-- Settles O12: after the match only the operand check is left (`fetchDecode_row`), and it looks at operand a first. -/
theorem registerIndexAboveSevenFaults : Obligations.RegisterIndexAboveSevenFaults := by
  intro s m hs hrow
  have hdecode := fetchDecode_row hs.2 hrow
  refine ⟨fun hf ha => ?_, fun hf ha hb => ?_, fun ha hb => ?_⟩
  · have hfault := decodeOperands_opa hf ha
    exact ⟨hdecode.trans hfault, step_row_fault hs hrow hfault⟩
  · have hfault := decodeOperands_opb hf ha hb
    exact ⟨hdecode.trans hfault, step_row_fault hs hrow hfault⟩
  · obtain ⟨i, hi⟩ := decodeOperands_inRange ha hb
    exact ⟨i, decodeOperands_mnemonic hi, hdecode.trans hi⟩

/-! ## The fault codes -/

/-- Fetch and decode name an address only for the fetch itself, and then it is `pc` (60_exceptions.md R121). -/
theorem fetchDecode_addressOutOfRange {addr : Nat} :
    fetchDecode s = .error (.addressOutOfRange addr) ↔ 253 < s.pc.toNat ∧ addr = s.pc.toNat := by
  rw [fetchDecode_eq]
  split
  next htop => simp [htop, eq_comm]
  next hin =>
    refine ⟨fun hdecode => ?_, fun h => absurd h.1 hin⟩
    rcases decode_error_cases hdecode with e | e | e <;> cases e

/-- A running machine's step records code 4 only when its fetch is out of range: decode raises other codes, the one fault of
execute is the zero divisor, and before the step nothing was recorded. -/
theorem pc_of_step_err_address (hs : s.Inv) (hrun : s.run = true) (h : step s = .next t) (herr : t.err = 4) :
    253 < s.pc.toNat := by
  rcases step_cases s with ⟨hstopped, -⟩ | ⟨-, c, hfault, e⟩ | ⟨-, -, i, -, e⟩
  · simp [hrun] at hstopped
  · rw [e] at h
    cases h
    cases c with
    | addressOutOfRange addr => exact (fetchDecode_addressOutOfRange.mp hfault).1
    | divideByZero _ | illegalOpcode _ | registerIndexOutOfRange _ => exact absurd herr (by simp [faultCode])
  · rw [e] at h
    rcases exec_err h with hkept | ⟨a, b, -, -, rfl⟩
    · have hstopped := hs.err_stopped (by rw [← hkept, herr]; decide)
      simp [hrun] at hstopped
    · exact absurd herr (by simp [faultCode])

/-- Settles O10: under the invariant the three values are those above 253; there the fetch raises, and elsewhere neither fetch
nor execute does (`fetchDecode_addressOutOfRange`, `pc_of_step_err_address`). -/
theorem addressFaultExactlyAtTheTop : Obligations.AddressFaultExactlyAtTheTop := by
  intro s hs hrun
  have htop : 253 < s.pc.toNat ↔ (s.pc.toNat = 254 ∨ s.pc.toNat = 255 ∨ s.pc.toNat = 256) := by
    have := hs.pc_le
    omega
  rw [← htop]
  refine ⟨⟨fun ⟨addr, h⟩ => pc_of_step_err_address hs hrun h rfl, fun hpc => ⟨_, step_fetchFault hrun hpc⟩⟩,
    ⟨fun ⟨addr, h⟩ => (fetchDecode_addressOutOfRange.mp h).1, fun hpc => ?_⟩, step_fetchFault hrun⟩
  exact ⟨_, fetchDecode_addressOutOfRange.mpr ⟨hpc, rfl⟩⟩

/-- Settles O13: the step is `raise`, which writes `run` and `err` only. -/
theorem faultEntryWritesRunAndErr : Obligations.FaultEntryWritesRunAndErr := by
  intro s c hrun hfault
  refine ⟨raise c s, step_fault hrun hfault, rfl, ?_, fun _ => rfl, rfl, rfl, sameMemory_raise s c, rfl, rfl⟩
  cases c <;> rfl

/-- Settles O14: a step that changes `err` is a `raise`, by `step_cases` before execute and by `exec_err` in it. -/
theorem faultsArePrecise : Obligations.FaultsArePrecise := by
  intro s t h herr
  suffices hraise : s.run = true ∧ ∃ c, t = raise c s by
    obtain ⟨hrun, c, rfl⟩ := hraise
    exact ⟨hrun, rfl, faultCode_bounds c⟩
  rcases step_cases s with ⟨-, e⟩ | ⟨hrun, c, -, e⟩ | ⟨hrun, -, i, -, e⟩ <;> rw [e] at h
  · cases h; exact absurd rfl herr
  · cases h; exact ⟨hrun, c, rfl⟩
  · rcases exec_err h with hkept | ⟨a, b, -, -, hraise⟩
    · exact absurd hkept herr
    · exact ⟨hrun, _, hraise⟩

end Sys2Proof.Machine
end

section
/-! PROOFS of the whole-machine rules of 10_state.md sections 3 and 5 (R17, R20) and 20_memory.md section 5 (R40): who writes the
flags and memory, who reads the flags, and what the next fetch sees. -/

namespace Sys2Proof.Machine

open Sys2Proof.Claims

variable {i : Instr} {s t : State}

/-- Every register after a write of the stack pointer. -/
theorem reg_setSp (s : State) (v : Byte) (q : Reg) : (s.setSp v).reg q = if q = 7 then v else s.reg q :=
  reg_setReg s Config.spIndex q v

/-- Settles O16: of the ways through the step only CMP's execution writes `fl` (`exec_fl`), with one of three values. -/
theorem onlyCmpWritesFlags : Obligations.OnlyCmpWritesFlags := by
  intro s t h
  rcases step_cases s with ⟨-, e⟩ | ⟨-, c, -, e⟩ | ⟨hrun, hpc, i, hdecode, e⟩ <;> rw [e] at h
  · cases h; exact .inl rfl
  · cases h; exact .inl rfl
  · rcases exec_fl h with hkept | ⟨a, b, rfl, hcmp⟩
    · exact .inl hkept
    · refine .inr ⟨hrun, ⟨a, b, fetchDecode_ok hpc hdecode⟩, ?_⟩
      rw [hcmp]
      rcases compareFlags_cases (s.reg a) (s.reg b) with ⟨-, e⟩ | ⟨-, e⟩ | ⟨-, e⟩ <;> rw [e] <;> decide

/-- Settles O18: of the ways through the step only PUSH's and CALL's execution write memory (`exec_mem`), one cell. -/
theorem onlyPushAndCallWriteMemory : Obligations.OnlyPushAndCallWriteMemory := by
  intro s t h
  rcases step_cases s with ⟨-, e⟩ | ⟨-, c, -, e⟩ | ⟨hrun, hpc, i, hdecode, e⟩ <;> rw [e] at h
  · cases h; exact .inl fun _ => rfl
  · cases h; exact .inl (sameMemory_raise s c)
  · have hfetched := fetchDecode_ok hpc hdecode
    rcases exec_mem h with hkept | ⟨a, rfl, hwrite⟩ | ⟨a, rfl, hwrite⟩
    · exact .inl fun addr => by rw [hkept]
    · exact .inr ⟨hrun, ⟨a, .inl hfetched⟩, fun addr hne => by rw [hwrite, Memory.read_write_ne _ _ hne]⟩
    · exact .inr ⟨hrun, ⟨a, .inr hfetched⟩, fun addr hne => by rw [hwrite, Memory.read_write_ne _ _ hne]⟩

/-- Settles O21: the fetch reads memory as it is, which `exec_push` and `exec_call` give as one write (`Memory.read_write`). -/
theorem storedByteIsSeenByTheNextFetch : Obligations.StoredByteIsSeenByTheNextFetch := by
  intro s t a hs hfetched h hpc
  refine ⟨by rw [fetch_eq, if_neg (Nat.not_lt.mpr hpc)]; rfl, fun addr => ?_⟩
  rcases hfetched with hpush | hcall
  · rw [step_eq_exec hs.1 hpush, exec_push] at h
    cases h
    simp [hpush, Memory.read_write, reg_setSp]
  · rw [step_eq_exec hs.1 hcall, exec_call] at h
    cases h
    simp [hcall, Memory.read_write]

/-! ## Who reads the flags -/

/-- With flags `f` in place of its own, `i` leaves everything but the flags as it does from `s`. -/
def IgnoresFlags (i : Instr) (s : State) (f : BitVec 3) : Prop :=
  ∃ t u : State, exec i s = .next t ∧ exec i { s with fl := f } = .next u ∧ u = { t with fl := u.fl }

/-- An instruction whose meaning `g` writes the same fields whatever the flags are. -/
theorem ignoresFlags_of_kept {f : BitVec 3} {g : State → State} (hexec : ∀ s : State, exec i s = .next (g s))
    (hkept : g { s with fl := f } = { g s with fl := (g { s with fl := f }).fl }) : IgnoresFlags i s f :=
  ⟨g s, g { s with fl := f }, hexec s, hexec _, hkept⟩

/-- A zero divisor and a quotient are told from the registers alone. -/
theorem ignoresFlags_of_divide {f : BitVec 3} {g : Byte → Byte → Byte} {a b : Reg}
    (hexec : ∀ s : State, exec i s =
      .next (if s.reg b = 0 then raise (.divideByZero s.pc) s else aluWriteBack g a b s)) : IgnoresFlags i s f := by
  have hreg : ({ s with fl := f } : State).reg b = s.reg b := rfl
  refine ignoresFlags_of_kept hexec ?_
  by_cases hb : s.reg b = 0
  · rw [hreg, if_pos hb, if_pos hb]
    rfl
  · rw [hreg, if_neg hb, if_neg hb]
    rfl

/-- A conditional jump goes the same way for flags with the same Equal. -/
theorem branch_setFlags (taken : Bool) (a : Reg) (s : State) (f : BitVec 3) :
    branch taken a { s with fl := f } = { branch taken a s with fl := f } := by
  cases taken with
  | true => rfl
  | false => rfl

/-- Settles O17: JEQ and JNE read Equal alone (`branch_setFlags`), the other instructions read no flag. -/
theorem onlyEqualIsReadAndOnlyByJumps : Obligations.OnlyEqualIsReadAndOnlyByJumps := by
  intro i s f hflags
  change IgnoresFlags i s f
  cases i with
  | jeq a =>
    have hE : ({ s with fl := f } : State).flagE = s.flagE := hflags.resolve_right fun hi => (hi a).1 rfl
    refine ⟨_, _, exec_jeq s a, exec_jeq _ a, ?_⟩
    rw [hE, branch_setFlags]
  | jne a =>
    have hE : ({ s with fl := f } : State).flagE = s.flagE := hflags.resolve_right fun hi => (hi a).2 rfl
    refine ⟨_, _, exec_jne s a, exec_jne _ a, ?_⟩
    rw [hE, branch_setFlags]
  | div a b => exact ignoresFlags_of_divide (exec_div · a b)
  | mod a b => exact ignoresFlags_of_divide (exec_mod · a b)
  | push a => exact ignoresFlags_of_kept (exec_push · a) rfl
  | pop a => exact ignoresFlags_of_kept (exec_pop · a) rfl
  | call a => exact ignoresFlags_of_kept (exec_call · a) rfl
  | ret => exact ignoresFlags_of_kept exec_ret rfl
  | _ => exact ignoresFlags_of_kept (fun _ => rfl) rfl

end Sys2Proof.Machine
end

section
/-! PROOFS of the families 20_memory.md sections 1 and 3, 70_reset_and_hazards.md sections 1 and 2 (R140 to R144), 10_state.md
section 8 (R24) and 60_exceptions.md section 5 (R136): what memory is as data, and what reset, launch and the debug view give. -/

namespace Sys2Proof.Machine

open Sys2Proof.Claims

/-! ## Memory as data -/

/-- A canonical memory lists nothing above the address space. -/
theorem Memory.read_of_wfFrom_of_le {lo addr : Nat} {m : Memory} (h : Memory.wfFrom lo m = true) (ha : 256 ≤ addr) :
    m.read addr = Config.fillByte := by
  induction m generalizing lo with
  | nil => rfl
  | cons c m ih =>
    obtain ⟨k, v⟩ := c
    obtain ⟨-, hk, -, hrest⟩ := Memory.wfFrom_cons.mp h
    rw [Memory.read, if_neg (by omega)]
    exact ih hrest

/-- Canonical memories with the same 256 bytes are the same list. -/
theorem Memory.eq_of_read_lt {m n : Memory} (hm : m.wf = true) (hn : n.wf = true)
    (h : ∀ addr : Nat, addr < 256 → m.read addr = n.read addr) : m = n := by
  refine Memory.eq_of_read hm hn fun addr => ?_
  by_cases ha : addr < 256
  · exact h addr ha
  · rw [Memory.read_of_wfFrom_of_le hm (by omega), Memory.read_of_wfFrom_of_le hn (by omega)]

/-- Settles O27: `Memory.eq_of_read_lt`, and the canonical form after a write. -/
theorem canonicalMemoryIsUnique : Obligations.CanonicalMemoryIsUnique :=
  ⟨fun _ _ hm hn h => Memory.eq_of_read_lt hm hn h,
    fun _ _ v hm ha => ⟨Memory.wf_write v hm ha, Memory.write_read hm ha⟩⟩

/-! ## Reset and launch -/

/-- Settles O28: the fields of the reset state, the registers one by one. -/
theorem resetValues : Obligations.ResetValues := by
  refine ⟨rfl, rfl, rfl, rfl, ?registers, rfl, rfl, rfl, fun _ => rfl⟩
  case registers => decide

/-- Memory after launch holds the image's byte at each address (70_reset_and_hazards.md R141). -/
theorem launch_read (p : Params) (image : Image) (n : Fin 256) : (launch p image).mem.read n.val = image[n] := by
  have hn : n.val < image.toList.length := by simp
  have hread := Memory.read_ofBytes 0 n.val image.toList hn
  rw [Nat.zero_add] at hread
  exact hread.trans (Vector.getElem_toList hn)

/-- Settles O29: `launch_read`, and the other fields are the reset state's by definition. -/
theorem launchMemoryIsTheImage : Obligations.LaunchMemoryIsTheImage :=
  fun p image => ⟨launch_read p image, rfl⟩

/-- What memory holds after a reset pulse with one load more, the last one. -/
theorem resetPulse_append_mem (s : State) (loads : List (Byte × Byte)) (addr data : Byte) :
    (s.resetPulse (loads ++ [(addr, data)])).mem = (s.resetPulse loads).mem.write addr.toNat data := by
  simp [State.resetPulse]

/-- Settles O30: both states are the reset registers beside canonical memories that read alike (`Memory.eq_of_read_lt`), and
the last load is one write. -/
theorem warmResetIsALaunchOfTheSameMemory : Obligations.WarmResetIsALaunchOfTheSameMemory := by
  refine ⟨fun s image hm himage => ?_, fun s loads addr data => ⟨?_, fun cell hne => ?_⟩⟩
  · have hmem : s.mem = (launch s.params image).mem := by
      refine Memory.eq_of_read_lt hm (Memory.wf_image image) fun addr ha => ?_
      rw [launch_read s.params image ⟨addr, ha⟩, himage ⟨addr, ha⟩]
    calc s.resetPulse [] = { State.reset with mem := s.mem, params := s.params } := rfl
      _ = launch s.params image := by rw [hmem]; rfl
  · rw [resetPulse_append_mem, Memory.read_write_self]
  · rw [resetPulse_append_mem, Memory.read_write_ne _ _ hne]

/-- Settles O31: the refusal is the bounds test, and cell `n` is `getD n` of the bytes with default 0. -/
theorem programImageIsZeroFilled : Obligations.ProgramImageIsZeroFilled := by
  intro bytes
  unfold imageOfProgram
  split
  next hbad =>
    rw [List.length_eq_zero_iff] at hbad
    exact ⟨⟨fun _ => hbad, fun _ => rfl⟩, fun image h => by cases h⟩
  next hgood =>
    rw [List.length_eq_zero_iff] at hgood
    refine ⟨⟨fun h => (by cases h), fun hbad => absurd hbad hgood⟩, fun image h n => ?_⟩
    rw [← Option.some.inj h, Fin.getElem_fin, Vector.getElem_ofFn]
    split
    next hin => exact List.getD_eq_getElem _ _ hin
    next hout => exact List.getD_eq_default _ _ (Nat.le_of_not_lt hout)

/-! ## The debug view -/

theorem debugByte_eq (s : State) (addr : Nat) :
    debugByte s addr = if addr ≤ 255 then some (s.mem.read addr) else none := by
  simp only [debugByte, Config.memSize, Nat.lt_succ_iff]

/-- Settles O32: the view's fields are the state's, its three bytes by `debugByte_eq`. -/
theorem debugViewShowsTheState : Obligations.DebugViewShowsTheState := by
  refine fun s => ⟨rfl, rfl, fun _ => rfl, fun n => ?_⟩
  rw [← debugByte_eq]
  match n with
  | 0 => rfl
  | 1 => rfl
  | 2 => rfl

end Sys2Proof.Machine
end

section
/-! PROOFS shared by the rules of the single instructions, and of 40_basic.md (R60 to R62). An instruction's encoding and operand
check follow from its row (`RowR`, `RowRR`); its frame from which registers its meaning writes (`frame_setReg`). -/

namespace Sys2Proof.Machine

open Sys2Proof.Claims

variable {s t : State} {m : Mnemonic}

/-! ## Encoding and operand check of a row -/

/-- On a machine with the spec's map, the byte of a row that counts selects the row. -/
theorem opcodeRow_window (hmap : StandardMap s) (hpresent : m.present s.params = true)
    (hir : s.window.ir = OpcodeMap.standard.byte m) : opcodeRow s.params s.window.ir = some m := by
  rw [hir, ← hmap]
  exact opcodeRow_byte (by rw [hmap]; exact OpcodeMap.standard_wf) hpresent

/-- The byte of a row that every machine has selects it. -/
theorem opcodeRow_window_of_ne_div (hmap : StandardMap s) (hm : m ≠ .div)
    (hir : s.window.ir = OpcodeMap.standard.byte m) : opcodeRow s.params s.window.ir = some m :=
  opcodeRow_window hmap (present_iff.mpr fun hdiv => absurd hdiv hm) hir

theorem eq_regByte_of_toNat {b : Byte} {r : Reg} (h : b.toNat = r.val) : b = regByte r :=
  eq_regByte_of_regOperand (regOperand_ok.mpr h)

/-- `op` builds the instructions of row `m`, which has format R. -/
structure RowR (op : Reg → Instr) (m : Mnemonic) : Prop where
  format : m.format = .r
  mnemonic : ∀ a : Reg, (op a).mnemonic = m
  operandBytes : ∀ a : Reg, (op a).operandBytes = [regByte a]

/-- `op` builds the instructions of row `m`, which has format RR. -/
structure RowRR (op : Reg → Reg → Instr) (m : Mnemonic) : Prop where
  format : m.format = .rr
  mnemonic : ∀ a b : Reg, (op a b).mnemonic = m
  operandBytes : ∀ a b : Reg, (op a b).operandBytes = [regByte a, regByte b]

theorem encodesR {op : Reg → Instr} (h : RowR op m) : EncodesR op (OpcodeMap.standard.byte m) := by
  intro a
  rw [encode, h.mnemonic, h.operandBytes]
  rfl

theorem checksOperandR {op : Reg → Instr} (h : RowR op m) (hm : m ≠ .div) :
    ChecksOperandR op (OpcodeMap.standard.byte m) := by
  intro s hs hmap hir
  have hrow := opcodeRow_window_of_ne_div hmap hm hir
  refine ⟨fun ha => step_row_fault hs hrow (decodeOperands_opa (by simp [h.format]) ha), fun a ha => ?_⟩
  refine step_row_exec hs hrow (h.mnemonic a) ?_
  rw [h.operandBytes, h.format, eq_regByte_of_toNat ha]
  rfl

theorem encodesRR {op : Reg → Reg → Instr} (h : RowRR op m) : EncodesRR op (OpcodeMap.standard.byte m) := by
  intro a b
  rw [encode, h.mnemonic, h.operandBytes]
  rfl

/-- The operand check of a format RR row that was matched, DIV's among them: operand a, operand b, then the instruction. -/
theorem step_rowRR {op : Reg → Reg → Instr} (h : RowRR op m) (hs : Ready s)
    (hrow : opcodeRow s.params s.window.ir = some m) :
    (7 < s.window.opa.toNat → step s = .next (raise (.registerIndexOutOfRange s.window.opa) s)) ∧
    (s.window.opa.toNat ≤ 7 → 7 < s.window.opb.toNat →
      step s = .next (raise (.registerIndexOutOfRange s.window.opb) s)) ∧
    (∀ a b : Reg, s.window.opa.toNat = a.val → s.window.opb.toNat = b.val → step s = exec (op a b) s) := by
  refine ⟨fun ha => step_row_fault hs hrow (decodeOperands_opa (by simp [h.format]) ha),
    fun ha hb => step_row_fault hs hrow (decodeOperands_opb h.format ha hb), fun a b ha hb => ?_⟩
  refine step_row_exec hs hrow (h.mnemonic a b) ?_
  rw [h.operandBytes, h.format, eq_regByte_of_toNat ha, eq_regByte_of_toNat hb]
  rfl

theorem checksOperandsRR {op : Reg → Reg → Instr} (h : RowRR op m) (hm : m ≠ .div) :
    ChecksOperandsRR op (OpcodeMap.standard.byte m) :=
  fun _ hs hmap hir => step_rowRR h hs (opcodeRow_window_of_ne_div hmap hm hir)

/-! ## Frames -/

theorem frame_refl (dests : List Reg) (s : State) : Frame dests s s :=
  ⟨fun _ _ => rfl, rfl, rfl, rfl, rfl, rfl⟩

/-- A write of a register that the frame leaves free. -/
theorem frame_setReg {dests : List Reg} {r : Reg} (v : Byte) (hr : r ∈ dests) (h : Frame dests s t) :
    Frame dests s (t.setReg r v) := by
  obtain ⟨hregs, hrest⟩ := h
  refine ⟨fun q hq => ?_, hrest⟩
  have hne : q ≠ r := fun hqr => hq (hqr ▸ hr)
  rw [reg_setReg_ne t v hne, hregs q hq]

/-- A jump or an increment of `pc` is free in every frame. -/
theorem frame_setPc {dests : List Reg} (pc : Pc) (h : Frame dests s t) : Frame dests s { t with pc := pc } := h

/-- The write-back of the formats R, RI and RR writes `x[a]` alone. -/
theorem frame_writeBack (s : State) (a : Reg) (v : Byte) (n : Nat) : Frame [a] s (writeBack s a v n) :=
  frame_setPc _ (frame_setReg v (List.mem_singleton_self a) (frame_refl [a] s))

@[simp] theorem reg_writeBack_self (s : State) (a : Reg) (v : Byte) (n : Nat) : (writeBack s a v n).reg a = v :=
  reg_setReg_self s a v

/-! ## HLT, LDI, PRN -/

/-- Settles O33: HLT's row has no operand to check, and its meaning writes `run` alone. -/
theorem hltStopsCleanly : Obligations.HltStopsCleanly := by
  refine ⟨rfl, fun s => ⟨_, exec_hlt s, rfl, rfl, rfl, rfl, rfl, rfl, fun _ => rfl, fun _ => rfl⟩, ?_⟩
  intro s hs hmap hir herr
  have hrow : opcodeRow s.params s.window.ir = some .hlt := opcodeRow_window_of_ne_div hmap (by decide) hir
  exact ⟨_, (step_row_exec hs hrow (i := .hlt) rfl rfl).trans (exec_hlt s), rfl, herr⟩

/-- Settles O34: LDI's row checks operand a and takes the byte after it as it is; the effect is `writeBack`; from 253 the next
fetch is out of range. -/
theorem ldiLoadsItsLiteral : Obligations.LdiLoadsItsLiteral := by
  refine ⟨fun _ _ => rfl, fun s hs hmap hir => ?operandCheck, fun a imm s => ?effect⟩
  case operandCheck =>
    have hrow : opcodeRow s.params s.window.ir = some .ldi := opcodeRow_window_of_ne_div hmap (by decide) hir
    refine ⟨fun ha => step_row_fault hs hrow (decodeOperands_opa (by decide) ha), fun a ha => ?_⟩
    refine step_row_exec hs hrow rfl ?_
    rw [eq_regByte_of_toNat ha]
    rfl
  case effect =>
    refine ⟨_, exec_ldi s a imm, reg_writeBack_self s a imm 3, rfl, frame_writeBack s a imm 3, fun _ => rfl, ?_, ?_⟩
    · rintro rfl
      exact reg_writeBack_self s 7 imm 3
    · intro hpc hrun
      have htop : (writeBack s a imm 3).pc.toNat = 256 := by
        rw [show (writeBack s a imm 3).pc = s.pc + 3 from rfl, hpc]
        rfl
      refine ⟨htop, ?_⟩
      rw [step_fetchFault (s := writeBack s a imm 3) hrun (by omega), htop]

/-- Settles O35: PRN's row, and `exec_prn` writes `out` and `pc` alone. -/
theorem prnEmitsTheRegister : Obligations.PrnEmitsTheRegister := by
  have hrow : RowR .prn .prn := ⟨rfl, fun _ => rfl, fun _ => rfl⟩
  refine ⟨encodesR hrow, checksOperandR hrow (by decide), fun a s => ?_⟩
  exact ⟨_, exec_prn s a, rfl, List.drop_left, rfl, fun _ => rfl, rfl, rfl, rfl, rfl, fun _ => rfl⟩

end Sys2Proof.Machine
end

section
/-! PROOFS of the family 41_alu.md. Eight instructions write one function of the two operands back to `x[a]`, so each rule is its
row and the arithmetic of that function (`aluRule`); MOD and DIV do the same once the divisor is not 0. -/

namespace Sys2Proof.Machine

open Sys2Proof.Claims

variable {op : Reg → Reg → Instr} {f : Byte → Byte → Byte} {P : Nat → Nat → Nat → Prop}

/-! ## The two-operand instructions that write back -/

/-- The effect of an instruction that writes `f` of its operands back, from what `f` is as an integer function. -/
theorem writesResult (hexec : ∀ (a b : Reg) (s : State), exec (op a b) s = .next (aluWriteBack f a b s))
    (hf : ∀ va vb : Byte, P va.toNat vb.toNat (f va vb).toNat) : WritesResult op P := by
  refine fun a b s => ⟨_, hexec a b s, ?_, rfl, frame_writeBack s a _ 3, fun _ => rfl⟩
  rw [aluWriteBack, reg_writeBack_self]
  exact hf (s.reg a) (s.reg b)

/-- A whole rule of 41_alu.md, from the row, the meaning and the arithmetic. -/
theorem aluRule {m : Mnemonic} (hrow : RowRR op m) (hm : m ≠ .div)
    (hexec : ∀ (a b : Reg) (s : State), exec (op a b) s = .next (aluWriteBack f a b s))
    (hf : ∀ va vb : Byte, P va.toNat vb.toNat (f va vb).toNat) : AluRule op (OpcodeMap.standard.byte m) P :=
  ⟨encodesRR hrow, checksOperandsRR hrow hm, writesResult hexec hf⟩

theorem rowRR_add : RowRR .add .add := ⟨rfl, fun _ _ => rfl, fun _ _ => rfl⟩
theorem rowRR_sub : RowRR .sub .sub := ⟨rfl, fun _ _ => rfl, fun _ _ => rfl⟩
theorem rowRR_mul : RowRR .mul .mul := ⟨rfl, fun _ _ => rfl, fun _ _ => rfl⟩
theorem rowRR_div : RowRR .div .div := ⟨rfl, fun _ _ => rfl, fun _ _ => rfl⟩
theorem rowRR_mod : RowRR .mod .mod := ⟨rfl, fun _ _ => rfl, fun _ _ => rfl⟩
theorem rowRR_cmp : RowRR .cmp .cmp := ⟨rfl, fun _ _ => rfl, fun _ _ => rfl⟩
theorem rowRR_and : RowRR .and .and := ⟨rfl, fun _ _ => rfl, fun _ _ => rfl⟩
theorem rowRR_or : RowRR .or .or := ⟨rfl, fun _ _ => rfl, fun _ _ => rfl⟩
theorem rowRR_xor : RowRR .xor .xor := ⟨rfl, fun _ _ => rfl, fun _ _ => rfl⟩
theorem rowRR_shl : RowRR .shl .shl := ⟨rfl, fun _ _ => rfl, fun _ _ => rfl⟩
theorem rowRR_shr : RowRR .shr .shr := ⟨rfl, fun _ _ => rfl, fun _ _ => rfl⟩

/-- Settles O36: `aluRule` with the integer values of the three results. -/
theorem addSubMulWrapModulo256 : Obligations.AddSubMulWrapModulo256 :=
  ⟨aluRule rowRR_add (by decide) (fun a b s => exec_add s a b) aluAdd_toNat,
    aluRule rowRR_sub (by decide) (fun a b s => exec_sub s a b) aluSub_toInt,
    aluRule rowRR_mul (by decide) (fun a b s => exec_mul s a b) aluMul_toNat⟩

/-- Settles O37: `aluRule` with the bits of the two results. -/
theorem andOrAreBitwise : Obligations.AndOrAreBitwise := by
  refine ⟨aluRule rowRR_and (by decide) (fun a b s => exec_and s a b) fun va vb n => ?_,
    aluRule rowRR_or (by decide) (fun a b s => exec_or s a b) fun va vb n => ?_⟩
  · simp only [BitVec.testBit_toNat, aluAnd_getLsbD]
  · simp only [BitVec.testBit_toNat, aluOr_getLsbD]

/-- Settles O38: `aluRule` with the bits of the result. -/
theorem xorIsBitwise : Obligations.XorIsBitwise := by
  refine aluRule rowRR_xor (by decide) (fun a b s => exec_xor s a b) fun va vb n => ?_
  simp only [BitVec.testBit_toNat, aluXor_getLsbD, Bool.bne_eq_xor]

/-- A left shift by the width or more has no bit left in the byte. -/
theorem mul_two_pow_mod_256 {k : Nat} (x : Nat) (hk : 8 ≤ k) : x * 2 ^ k % 256 = 0 :=
  Nat.mod_eq_zero_of_dvd ((Nat.pow_dvd_pow 2 hk).mul_left x)

/-- Settles O40: `aluRule` with the spec's formula, which is 0 from count 8 on. -/
theorem shlShiftsLeft : Obligations.ShlShiftsLeft := by
  refine aluRule rowRR_shl (by decide) (fun a b s => exec_shl s a b) fun va vb => ⟨aluShl_toNat va vb, fun hcount => ?_⟩
  rw [aluShl_toNat, mul_two_pow_mod_256 _ hcount]

/-- Settles O41: `aluRule` with the spec's formula; a byte is below `2^8`, so count 8 leaves nothing and count 1 clears bit 7. -/
theorem shrShiftsRightLogically : Obligations.ShrShiftsRightLogically := by
  refine aluRule rowRR_shr (by decide) (fun a b s => exec_shr s a b) fun va vb =>
    ⟨aluShr_toNat va vb, fun hcount => ?_, fun hcount => ?_⟩
  · rw [aluShr_toNat]
    exact Nat.div_eq_of_lt (lt_of_lt_of_le va.isLt (Nat.pow_le_pow_right (by decide) hcount))
  · have hpow : 2 ^ 1 ≤ 2 ^ vb.toNat := Nat.pow_le_pow_right (by decide) hcount
    rw [aluShr_toNat, Nat.div_lt_iff_lt_mul (by omega)]
    have := va.isLt
    omega

/-- A result written back is `f` of the operands and of nothing else in the state (41_alu.md R80). -/
theorem result_of_writeBack {q : (Reg → Reg → Instr) × (Nat → Nat → Nat → Prop)}
    (hexec : ∀ (a b : Reg) (s : State), exec (q.1 a b) s = .next (aluWriteBack f a b s))
    (hf : ∀ va vb : Byte, q.2 va.toNat vb.toNat (f va vb).toNat) :
    ∃ f : Byte → Byte → Byte, (∀ va vb : Byte, q.2 va.toNat vb.toNat (f va vb).toNat) ∧
      ∀ (a b : Reg) (s : State), ∃ t : State, exec (q.1 a b) s = .next t ∧ t.reg a = f (s.reg a) (s.reg b) :=
  ⟨f, hf, fun a b s => ⟨_, hexec a b s, reg_writeBack_self s a _ 3⟩⟩

/-- Settles O42: each of the eight writes its `alu…` function back. -/
theorem aluResultsDependOnOperandsOnly : Obligations.AluResultsDependOnOperandsOnly := by
  intro q hq
  fin_cases hq
  · exact result_of_writeBack (fun a b s => exec_add s a b) aluAdd_toNat
  · exact result_of_writeBack (fun a b s => exec_sub s a b) aluSub_toInt
  · exact result_of_writeBack (fun a b s => exec_mul s a b) aluMul_toNat
  · exact result_of_writeBack (fun a b s => exec_and s a b) BitVec.toNat_and
  · exact result_of_writeBack (fun a b s => exec_or s a b) BitVec.toNat_or
  · exact result_of_writeBack (fun a b s => exec_xor s a b) BitVec.toNat_xor
  · exact result_of_writeBack (fun a b s => exec_shl s a b) aluShl_toNat
  · exact result_of_writeBack (fun a b s => exec_shr s a b) aluShr_toNat

/-- Settles O39: NOT's row, and `writeBack` of the complement. -/
theorem notComplementsEightBits : Obligations.NotComplementsEightBits := by
  have hrow : RowR .not .not := ⟨rfl, fun _ => rfl, fun _ => rfl⟩
  refine ⟨encodesR hrow, checksOperandR hrow (by decide), fun a s => ?_⟩
  refine ⟨_, exec_not s a, ?_, rfl, frame_writeBack s a _ 2, fun _ => rfl⟩
  rw [reg_writeBack_self, aluNot_toNat]

/-! ## CMP -/

/-- The three bits that CMP writes, by the unsigned comparison (41_alu.md R71). -/
theorem compareFlags_bits (va vb : Byte) :
    ((compareFlags va vb).getLsbD 0 = true ↔ va.toNat = vb.toNat) ∧
    ((compareFlags va vb).getLsbD 2 = true ↔ va.toNat < vb.toNat) ∧
    ((compareFlags va vb).getLsbD 1 = true ↔ vb.toNat < va.toNat) := by
  rcases compareFlags_cases va vb with ⟨h, e⟩ | ⟨h, e⟩ | ⟨h, e⟩ <;> rw [e]
  · simp [h]
  · simp [h, Nat.ne_of_lt h, Nat.le_of_lt h]
  · simp [h, Nat.ne_of_gt h, Nat.le_of_lt h]

/-- Settles O43: CMP's row, and the flags by `compareFlags_bits`. -/
theorem cmpSetsExactlyOneFlag : Obligations.CmpSetsExactlyOneFlag := by
  refine ⟨encodesRR rowRR_cmp, checksOperandsRR rowRR_cmp (by decide), fun a b s => ?_⟩
  obtain ⟨hequal, hless, hgreater⟩ := compareFlags_bits (s.reg a) (s.reg b)
  exact ⟨_, exec_cmp s a b, hequal, hless, hgreater, rfl, fun _ => rfl, rfl, rfl, rfl, rfl, fun _ => rfl⟩

/-! ## MOD and DIV -/

theorem exec_mod_of_ne_zero {s : State} (a : Reg) {b : Reg} (hb : s.reg b ≠ 0) :
    exec (.mod a b) s = .next (aluWriteBack aluMod a b s) := by
  rw [exec_mod, if_neg hb]

theorem exec_div_of_ne_zero {s : State} (a : Reg) {b : Reg} (hb : s.reg b ≠ 0) :
    exec (.div a b) s = .next (aluWriteBack aluDiv a b s) := by
  rw [exec_div, if_neg hb]

/-- Settles O44: MOD's row, and the remainder is the dividend without the whole multiples of the divisor. -/
theorem modGivesTheRemainder : Obligations.ModGivesTheRemainder := by
  refine ⟨encodesRR rowRR_mod, checksOperandsRR rowRR_mod (by decide), fun a b s hb => ?_⟩
  have hpos : 0 < (s.reg b).toNat := Nat.pos_of_ne_zero fun hzero => hb (BitVec.eq_of_toNat_eq hzero)
  refine ⟨_, exec_mod_of_ne_zero a hb, ?_, ?_, rfl, frame_writeBack s a _ 3, fun _ => rfl⟩
  · rw [aluWriteBack, reg_writeBack_self, aluMod_toNat, Nat.mod_eq_sub_mul_div]
  · rw [aluWriteBack, reg_writeBack_self, aluMod_toNat]
    exact Nat.mod_lt _ hpos

/-- Settles O45: DIV's row is absent without `HAS_DIV` and checked as a format RR row with it; quotient and remainder fit by the
division algorithm. -/
theorem divGivesTheQuotient : Obligations.DivGivesTheQuotient := by
  refine ⟨fun _ _ => rfl, fun s hs hmap hir => ?operandCheck, fun a b s hb => ?effect⟩
  case operandCheck =>
    have hchecks (hdiv : s.params.hasDiv = true) := step_rowRR rowRR_div hs (opcodeRow_window hmap hdiv hir)
    refine ⟨fun hoff => ?_, fun hdiv => ?_, fun hdiv => ?_, fun hdiv => ?_⟩
    · have hillegal : decode ⟨s.params.hasDiv, OpcodeMap.standard⟩ s.window = .error (.illegalOpcode s.window.ir) :=
        (otherBytesAreIllegal _ _).mpr ⟨by rw [hir]; decide, fun _ => hoff⟩
      rw [← show s.params.opcodes = OpcodeMap.standard from hmap, hir] at hillegal
      exact step_decodeFault hs.1 hs.2 hillegal
    · obtain ⟨hopa, -, -⟩ := hchecks hdiv
      exact hopa
    · obtain ⟨-, hopb, -⟩ := hchecks hdiv
      exact hopb
    · obtain ⟨-, -, hexec⟩ := hchecks hdiv
      exact hexec
  case effect =>
    refine ⟨_, _, exec_div_of_ne_zero a hb, exec_mod_of_ne_zero a hb, ?_, ?_, rfl, frame_writeBack s a _ 3, fun _ => rfl⟩
    · rw [aluWriteBack, reg_writeBack_self, aluDiv_toNat]
    · simp only [aluWriteBack, reg_writeBack_self, aluDiv_toNat, aluMod_toNat]
      exact (Nat.div_add_mod' _ _).symm

/-- Settles O46: `exec_mod` and `exec_div` raise, with code 1. -/
theorem zeroDivisorStopsTheMachine : Obligations.ZeroDivisorStopsTheMachine := by
  intro a b s hb
  rw [exec_mod, exec_div, if_pos hb, if_pos hb]
  exact ⟨rfl, rfl⟩

end Sys2Proof.Machine
end

section
/-! PROOFS of the families 42_stack.md and 43_control_transfer.md. PUSH and CALL store one byte below the top (`pushed`), POP and
RET read the byte at the pointer and raise it; the rules, and that the one undoes the other, are read off from these. -/

namespace Sys2Proof.Machine

open Sys2Proof.Claims

variable (s : State) (v : Byte) (a : Reg)

/-! ## The state after a push -/

/-- The state with the pointer down by one and `v` in the cell it then names (42_stack.md R85). -/
def State.pushed : State := { s.setSp (s.sp - 1) with mem := s.mem.write (s.sp - 1).toNat v }

theorem sp_pushed : (s.pushed v).sp = s.sp - 1 := sp_setSp s (s.sp - 1)

theorem read_pushed : (s.pushed v).mem.read (s.sp - 1).toNat = v := s.mem.read_write_self _ v

theorem sameMemoryBut_pushed : SameMemoryBut (s.sp - 1).toNat s (s.pushed v) :=
  fun _ hne => s.mem.read_write_ne v hne

theorem frame_pushed : Frame [7] s (s.pushed v) :=
  frame_setReg (s.sp - 1) (List.mem_singleton_self 7) (frame_refl [7] s)

/-- PUSH stores `x[a]`, or the lowered pointer itself for register 7 (R86, D14). -/
theorem exec_push_eq_pushed :
    exec (.push a) s = .next ((s.pushed (if a = 7 then s.sp - 1 else s.reg a)).advance 2) := by
  rw [exec_push, reg_setSp]
  rfl

/-- CALL stores the return address and jumps to `x[a]`, or to the lowered pointer for register 7 (R91, D14). -/
theorem exec_call_eq_pushed :
    exec (.call a) s = .next ((s.pushed (returnAddress s)).jumpTo (if a = 7 then s.sp - 1 else s.reg a)) := by
  rw [exec_call, reg_setSp]
  rfl

/-- The return address fits a byte from every `pc` that can execute (50_execution_engine.md R102). -/
theorem returnAddress_toNat (hpc : s.pc.toNat ≤ 253) : (returnAddress s).toNat = s.pc.toNat + 2 := by
  rw [returnAddress, BitVec.toNat_ofNat]
  omega

/-! ## The state after a pop -/

/-- POP of a register that is not the pointer. -/
theorem exec_pop_of_ne (ha : a ≠ 7) :
    exec (.pop a) s = .next (((s.setReg a (s.mem.read s.sp.toNat)).setSp (s.sp + 1)).advance 2) := by
  rw [exec_pop, sp_setReg_ne s _ ha]

/-- POP of register 7 raises the loaded byte (D14). -/
theorem exec_pop_sp :
    exec (.pop 7) s =
      .next (((s.setReg 7 (s.mem.read s.sp.toNat)).setSp (s.mem.read s.sp.toNat + 1)).advance 2) := by
  rw [exec_pop, sp_eq_reg (s.setReg 7 _), reg_setReg_self]

theorem frame_setSp_setReg (w : Byte) : Frame [a, 7] s ((s.setReg a v).setSp w) :=
  frame_setReg (r := 7) w (by simp) (frame_setReg v (by simp) (frame_refl _ s))

theorem reg_setSp_setReg (w : Byte) {a : Reg} (ha : a ≠ 7) : ((s.setReg a v).setSp w).reg a = v := by
  rw [reg_setSp_ne _ w ha, reg_setReg_self]

/-- RET jumps to the byte at the pointer and raises the pointer (R92). -/
theorem exec_ret_eq : exec .ret s = .next ((s.setSp (s.sp + 1)).jumpTo (s.mem.read s.sp.toNat)) := exec_ret s

theorem frame_setSp : Frame [7] s (s.setSp v) :=
  frame_setReg v (List.mem_singleton_self 7) (frame_refl [7] s)

/-! ## PUSH and POP -/

/-- Settles O47: PUSH's row, and the state `pushed`. -/
theorem pushStoresBelowTheTop : Obligations.PushStoresBelowTheTop := by
  have hrow : RowR .push .push := ⟨rfl, fun _ => rfl, fun _ => rfl⟩
  refine ⟨encodesR hrow, checksOperandR hrow (by decide), fun a s => ?_⟩
  have hexec := exec_push_eq_pushed s a
  generalize (if a = 7 then s.sp - 1 else s.reg a) = v at hexec ⊢
  refine ⟨_, hexec, sp_pushed s v, ?_, read_pushed s v, sameMemoryBut_pushed s v, rfl, frame_pushed s v⟩
  rw [sp_advance, sp_pushed, sub_one_toNat]

/-- Settles O48: POP's row, and the two registers it writes, in the order of `exec_pop`. -/
theorem popLoadsTheTop : Obligations.PopLoadsTheTop := by
  have hrow : RowR .pop .pop := ⟨rfl, fun _ => rfl, fun _ => rfl⟩
  refine ⟨encodesR hrow, checksOperandR hrow (by decide), fun a s => ?_⟩
  by_cases ha : a = 7
  · subst ha
    refine ⟨_, exec_pop_sp s, fun hne => absurd rfl hne, fun _ => ?_, rfl, frame_setSp_setReg s _ 7 _, fun _ => rfl⟩
    rw [sp_advance, sp_setSp, add_one_toNat]
  · refine ⟨_, exec_pop_of_ne s a ha, fun _ => ⟨reg_setSp_setReg s _ _ ha, ?_⟩, fun h => absurd h ha, rfl,
      frame_setSp_setReg s _ a _, fun _ => rfl⟩
    rw [sp_advance, sp_setSp, add_one_toNat]

/-- POP restores the register and the pointer of a PUSH from any state with the pushed pointer and the pushed cell. -/
theorem pop_restores {t' : State} {a : Reg} (ha : a ≠ 7) (hsp : t'.sp = s.sp - 1)
    (hcell : t'.mem.read (s.sp - 1).toNat = s.reg a) :
    ∃ u : State, exec (.pop a) t' = .next u ∧ u.reg a = s.reg a ∧ u.sp = s.sp := by
  refine ⟨_, exec_pop_of_ne t' a ha, ?_, ?_⟩
  · rw [reg_advance, reg_setSp_setReg _ _ _ ha, hsp, hcell]
  · rw [sp_advance, sp_setSp, hsp, BitVec.sub_add_cancel]

/-- POP of register 7 restores the pointer from the lowered pointer that PUSH stored (D14). -/
theorem pop_sp_restores {t' : State} (hsp : t'.sp = s.sp - 1) (hcell : t'.mem.read (s.sp - 1).toNat = s.sp - 1) :
    ∃ u : State, exec (.pop 7) t' = .next u ∧ u.sp = s.sp := by
  refine ⟨_, exec_pop_sp t', ?_⟩
  rw [sp_advance, sp_setSp, hsp, hcell, BitVec.sub_add_cancel]

/-- Settles O49: the state `pushed` is one that `pop_restores` starts from, and for register 7 `pop_sp_restores`. -/
theorem pushThenPopRestores : Obligations.PushThenPopRestores := by
  intro a s
  refine ⟨_, exec_push_eq_pushed s a, fun ha t' hsp hcell => ?later, ?atOnce⟩
  case later =>
    rw [sp_advance, sp_pushed] at hsp hcell
    refine pop_restores s ha hsp (hcell.trans ?_)
    rw [advance_mem, read_pushed, if_neg ha]
  case atOnce =>
    by_cases ha : a = 7
    · subst ha
      obtain ⟨u, hpop, hsp⟩ := pop_sp_restores s (t' := (s.pushed (s.sp - 1)).advance 2)
        (sp_pushed s (s.sp - 1)) (read_pushed s (s.sp - 1))
      exact ⟨u, hpop, hsp, hsp⟩
    · refine pop_restores s ha (by rw [sp_advance, sp_pushed]) ?_
      rw [advance_mem, read_pushed, if_neg ha]

/-! ## CALL and RET -/

/-- Settles O50: CALL's row, and the state `pushed` with the return address. -/
theorem callPushesTheNextAddress : Obligations.CallPushesTheNextAddress := by
  have hrow : RowR .call .call := ⟨rfl, fun _ => rfl, fun _ => rfl⟩
  refine ⟨encodesR hrow, checksOperandR hrow (by decide), fun a s => ?_⟩
  refine ⟨_, exec_call_eq_pushed s a, sp_pushed s (returnAddress s), read_pushed s (returnAddress s), fun hpc => ?_,
    sameMemoryBut_pushed s (returnAddress s), zeroExtend_toNat _, frame_pushed s (returnAddress s)⟩
  rw [jumpTo_mem, read_pushed, returnAddress_toNat s hpc]

/-- Settles O51: RET's row has no operand to check, and `exec_ret_eq`. -/
theorem retJumpsToTheTopOfStack : Obligations.RetJumpsToTheTopOfStack := by
  refine ⟨rfl, fun s hs hmap hir => ?_, fun s => ?_⟩
  · have hrow : opcodeRow s.params s.window.ir = some .ret := opcodeRow_window_of_ne_div hmap (by decide) hir
    exact step_row_exec hs hrow rfl rfl
  · refine ⟨_, exec_ret_eq s, zeroExtend_toNat _, ?_, frame_setSp s _, fun _ => rfl⟩
    rw [sp_jumpTo, sp_setSp, add_one_toNat]

/-- Settles O55: RET reads back the return address that CALL pushed, and raises the pointer that CALL lowered. -/
theorem callThenRetResumes : Obligations.CallThenRetResumes := by
  intro a s hpc
  refine ⟨_, exec_call_eq_pushed s a, fun t' hsp hcell => ⟨_, exec_ret_eq t', ?_, ?_⟩⟩
  · rw [hsp, hcell, jumpTo_pc, zeroExtend_toNat, jumpTo_mem, sp_jumpTo, sp_pushed, read_pushed, returnAddress_toNat s hpc]
  · rw [sp_jumpTo, sp_setSp, hsp, sp_jumpTo, sp_pushed, BitVec.sub_add_cancel]

/-! ## The jumps -/

/-- Settles O52: JMP's row, and `exec_jmp` writes `pc` alone. -/
theorem jmpJumpsToTheRegister : Obligations.JmpJumpsToTheRegister := by
  have hrow : RowR .jmp .jmp := ⟨rfl, fun _ => rfl, fun _ => rfl⟩
  refine ⟨encodesR hrow, checksOperandR hrow (by decide), fun a s => ?_⟩
  refine ⟨_, exec_jmp s a, zeroExtend_toNat _, frame_refl [] s, fun _ => rfl, fun hself => ?_⟩
  have hpc : (s.reg a).zeroExtend 9 = s.pc := BitVec.eq_of_toNat_eq ((zeroExtend_toNat _).trans hself)
  rw [State.jumpTo, hpc]

/-- Both ways out of a conditional jump leave registers, flags and memory alone. -/
theorem frame_branch (taken : Bool) : Frame [] s (branch taken a s) ∧ SameMemory s (branch taken a s) := by
  obtain ⟨pc, e⟩ := branch_eq taken a s
  rw [e]
  exact ⟨frame_refl [] s, fun _ => rfl⟩

theorem branch_true_pc : (branch true a s).pc.toNat = (s.reg a).toNat := zeroExtend_toNat _

theorem branch_false_pc : (branch false a s).pc = s.pc + 2 := rfl

/-- Settles O53: the rows of JEQ and JNE; they branch on Equal and on its negation. -/
theorem conditionalJumpsTestEqual : Obligations.ConditionalJumpsTestEqual := by
  have hjeq : RowR .jeq .jeq := ⟨rfl, fun _ => rfl, fun _ => rfl⟩
  have hjne : RowR .jne .jne := ⟨rfl, fun _ => rfl, fun _ => rfl⟩
  refine ⟨encodesR hjeq, checksOperandR hjeq (by decide), encodesR hjne, checksOperandR hjne (by decide), fun a s => ?_⟩
  obtain ⟨hframeJeq, hmemJeq⟩ := frame_branch s a s.flagE
  obtain ⟨hframeJne, hmemJne⟩ := frame_branch s a !s.flagE
  refine ⟨_, _, exec_jeq s a, exec_jne s a, fun hE => ?_, fun hE => ?_, hframeJeq, hmemJeq, hframeJne, hmemJne⟩
  · rw [hE]
    exact ⟨branch_true_pc s a, branch_false_pc s a⟩
  · rw [hE]
    exact ⟨branch_false_pc s a, branch_true_pc s a⟩

/-- After CMP, Equal says whether the two registers were equal. -/
theorem flagE_setFlags_compare (b : Reg) :
    (s.setFlags (compareFlags (s.reg a) (s.reg b))).flagE = decide (s.reg a = s.reg b) := by
  obtain ⟨hequal, -, -⟩ := compareFlags_bits (s.reg a) (s.reg b)
  rw [Bool.eq_iff_iff, decide_eq_true_iff, ← BitVec.toNat_inj]
  exact hequal

/-- Settles O54: CMP leaves Equal as in `flagE_setFlags_compare` and `pc` 3 further; the untaken jump adds 2. -/
theorem compareThenJump : Obligations.CompareThenJump := by
  intro a b r s
  have hE : ((s.setFlags (compareFlags (s.reg a) (s.reg b))).advance 3).flagE = decide (s.reg a = s.reg b) :=
    flagE_setFlags_compare s a b
  have hnext : s.pc + 3 + 2 = s.pc + 5 := BitVec.add_assoc s.pc 3 2
  refine ⟨_, exec_cmp s a b, ⟨_, exec_jeq _ r, fun heq => ?_, fun hne => ?_⟩, ⟨_, exec_jne _ r, fun heq => ?_, fun hne => ?_⟩⟩
  · rw [hE, decide_eq_true heq]
    exact branch_true_pc _ r
  · rw [hE, decide_eq_false hne]
    exact hnext
  · rw [hE, decide_eq_true heq]
    exact hnext
  · rw [hE, decide_eq_false hne]
    exact branch_true_pc _ r

end Sys2Proof.Machine
end
